-- ==== Sys2Proof/Word.lean ====
section
/-! DEFINITION. The word types of the base64-uint8 CORE (R6, R7): every value is an unsigned bit vector, bit 0 the
least significant one. The spec's `v[hi:lo]` is `v.extractLsb' lo (hi - lo + 1)`, its `{a, b}` is `a ++ b`. -/

namespace Sys2Proof

/-- A byte of the byte buffer, `BYTE_W = 8` (R6, R8). -/
abbrev Byte := BitVec 8

/-- A character code on the interface, `CHAR_W = 8` (R6, R8). -/
abbrev CharCode := BitVec 8

/-- An alphabet index, `IDX_W = 6`; also the width of an `INV` word, `INV_W = 6` (R6). -/
abbrev Index := BitVec 6

/-- A word of `symbol_rom`, `SYM_W = 7` (R6). -/
abbrev SymWord := BitVec 7

/-- A declared length, a position or a character index, `LEN_W = 32` (R6). -/
abbrev Len := BitVec 32

/-- The payload of a request and the `data` field of a response (R60, R62). -/
abbrev Payload := BitVec 32

/-- The group of 24 bits on the byte side, `GROUP_BYTES = 3` (R6, R44). -/
abbrev ByteGroup := BitVec 24

/-- The request word, `REQ_W = 36` (R60). -/
abbrev Request := BitVec 36

/-- The response word, `RSP_W = 80` (R62). -/
abbrev ResponseWord := BitVec 80

end Sys2Proof
end

