-- ==== Sys2Proof/Config.lean ====
section
/-! DEFINITION. What is fixed for the machine beyond its widths (R6). The spec leaves no parameter open and no value
undefined (R6 "none is left as a free argument of the model", R147), so no free value stands here. -/

namespace Sys2Proof.Config

/-- `PAD`, the code of the padding character `=` (R6, R81). -/
abbrev pad : CharCode := 0x3D#8

/-- `INV_FILL`, the data word of `inverse_symbol_rom` at a code that is not in the alphabet (R6, R42). -/
abbrev invFill : Index := 0#6

end Sys2Proof.Config
end

