-- ==== Sys2Proof/Syntax.lean ====
section
/-! DEFINITION. The operations of the CORE as data: one constructor for every row of spec/opcode_table.json
(R61, R68, R69). An operand has exactly the width of its payload field; a payload bit marked "ign" is in no operand
(R70, and U9 of 93_implementation_defined.md: a model may normalise those bits on entry; log entry 9). -/

namespace Sys2Proof

inductive Instr where
  /-- ENC0: encode an empty group (R92). -/
  | enc0
  /-- ENC1: encode a one-byte tail (R93). -/
  | enc1 (b0 : Byte)
  /-- ENC2: encode a two-byte tail (R94). -/
  | enc2 (b0 b1 : Byte)
  /-- ENC3: encode a full group (R95). -/
  | enc3 (b0 b1 b2 : Byte)
  /-- DSTART: declare the length of a new message (R116). -/
  | dstart (len : Len)
  /-- DGRP: present the next four characters (R117). -/
  | dgrp (c0 c1 c2 c3 : CharCode)
  /-- SYMAT: read `symbol_rom` (R84). -/
  | symat (i : Index)
  /-- IDXOF: read `inverse_symbol_rom` (R85). -/
  | idxof (c : CharCode)
  /-- DSTAT: read the decoder status (R121). -/
  | dstat
  /-- Reserved operation code 0x9 (R69). -/
  | reserved9
  /-- Reserved operation code 0xA (R69). -/
  | reservedA
  /-- Reserved operation code 0xB (R69). -/
  | reservedB
  /-- Reserved operation code 0xC (R69). -/
  | reservedC
  /-- Reserved operation code 0xD (R69). -/
  | reservedD
  /-- Reserved operation code 0xE (R69). -/
  | reservedE
  /-- Reserved operation code 0xF (R69). -/
  | reservedF
  deriving DecidableEq, Repr

end Sys2Proof
end

