-- ==== Sys2Proof/WellFormed.lean ====
section
/-! DEFINITION. Which terms stand for requests. An `Instr` carries its operand widths in its types, so every one of
them is well formed (R70 "no request word is illegal because of its payload"). A line of the assembler (R71 to R73)
is written with numbers and strings that may be out of range: there the checks have something to refuse. -/

namespace Sys2Proof

/-- Every constructor is listed, so that one added later must say its check. -/
def Instr.wf : Instr → Bool
  | .enc0 => true
  | .enc1 _ => true
  | .enc2 _ _ => true
  | .enc3 _ _ _ => true
  | .dstart _ => true
  | .dgrp _ _ _ _ => true
  | .symat _ => true
  | .idxof _ => true
  | .dstat => true
  | .reserved9 => true
  | .reservedA => true
  | .reservedB => true
  | .reservedC => true
  | .reservedD => true
  | .reservedE => true
  | .reservedF => true

/-- One line of the assembler syntax (R71), its numbers as they are written; with the pseudo-instructions ENCODE (R72)
and DECODE (R73). A character stands as the number of its code. -/
inductive AsmLine where
  | enc0
  | enc1 (b0 : Nat)
  | enc2 (b0 b1 : Nat)
  | enc3 (b0 b1 b2 : Nat)
  | dstart (len : Nat)
  | dgrp (c0 c1 c2 c3 : Nat)
  /-- `DGRP "wxyz"`: one string of exactly four characters. -/
  | dgrpText (text : List Nat)
  | symat (i : Nat)
  | idxof (c : Nat)
  | dstat
  | encode (bytes : List Nat)
  | decode (text : List Nat)
  deriving DecidableEq, Repr

/-- The number fits an 8-bit operand. -/
def fitsByte (n : Nat) : Bool := decide (n < 2 ^ 8)

/-- Every operand fits its field (R61), a DGRP string has exactly four characters (R71), and a DECODE string has fewer
than 2^32 characters (R73). -/
def AsmLine.wf : AsmLine → Bool
  | .enc0 => true
  | .enc1 b0 => fitsByte b0
  | .enc2 b0 b1 => fitsByte b0 && fitsByte b1
  | .enc3 b0 b1 b2 => fitsByte b0 && fitsByte b1 && fitsByte b2
  | .dstart len => decide (len < 2 ^ 32)
  | .dgrp c0 c1 c2 c3 => fitsByte c0 && fitsByte c1 && fitsByte c2 && fitsByte c3
  | .dgrpText text => text.length == 4 && text.all fitsByte
  | .symat i => decide (i < 2 ^ 6)
  | .idxof c => fitsByte c
  | .dstat => true
  | .encode bytes => bytes.all fitsByte
  | .decode text => decide (text.length < 2 ^ 32) && text.all fitsByte

end Sys2Proof
end

