-- ==== Sys2Proof/Decode.lean ====
section
/-! DEFINITION. From request words to operations and back (R60, R61, R68 to R71). Decoding is total on request words:
each of the sixteen operation codes has its constructor, the reserved ones included, so only a number that is no
36-bit word is rejected, by name. -/

namespace Sys2Proof

/-- `opc = req[35:32]` (R60). -/
def reqOpc (w : Request) : BitVec 4 := w.extractLsb' 32 4

/-- `payload = req[31:0]` (R60). -/
def reqPayload (w : Request) : Payload := w.extractLsb' 0 32

/-- `{opc, payload}` (R60). -/
def mkRequest (opc : BitVec 4) (payload : Payload) : Request := opc ++ payload

/-- Byte lane `[31:24]` of a payload: `c0` of format DG (R61). -/
def lane0 (p : Payload) : BitVec 8 := p.extractLsb' 24 8

/-- Byte lane `[23:16]`: `b0` of formats E1 to E3, `c1` of format DG (R61). -/
def lane1 (p : Payload) : BitVec 8 := p.extractLsb' 16 8

/-- Byte lane `[15:8]`: `b1` of formats E2 and E3, `c2` of format DG (R61). -/
def lane2 (p : Payload) : BitVec 8 := p.extractLsb' 8 8

/-- Byte lane `[7:0]`: `b2` of format E3, `c3` of format DG, `c` of format RI (R61). -/
def lane3 (p : Payload) : BitVec 8 := p.extractLsb' 0 8

/-- Bits `[5:0]`: `i` of format RS (R61). -/
def indexField (p : Payload) : Index := p.extractLsb' 0 6

/-- The operation a request word selects (R68): the four bits of `opc`, most significant first, and nothing else
choose the row; the operands are the fields of its format (R61). -/
def decode (w : Request) : Instr :=
  let opc := reqOpc w
  let p := reqPayload w
  match opc.getLsbD 3, opc.getLsbD 2, opc.getLsbD 1, opc.getLsbD 0 with
  | false, false, false, false => .enc0                                        -- 0x0, format E0
  | false, false, false, true  => .enc1 (lane1 p)                              -- 0x1, format E1
  | false, false, true,  false => .enc2 (lane1 p) (lane2 p)                    -- 0x2, format E2
  | false, false, true,  true  => .enc3 (lane1 p) (lane2 p) (lane3 p)          -- 0x3, format E3
  | false, true,  false, false => .dstart p                                    -- 0x4, format DL
  | false, true,  false, true  => .dgrp (lane0 p) (lane1 p) (lane2 p) (lane3 p) -- 0x5, format DG
  | false, true,  true,  false => .symat (indexField p)                        -- 0x6, format RS
  | false, true,  true,  true  => .idxof (lane3 p)                             -- 0x7, format RI
  | true,  false, false, false => .dstat                                       -- 0x8, format DS
  | true,  false, false, true  => .reserved9                                   -- 0x9, format RV, to 0xF
  | true,  false, true,  false => .reservedA
  | true,  false, true,  true  => .reservedB
  | true,  true,  false, false => .reservedC
  | true,  true,  false, true  => .reservedD
  | true,  true,  true,  false => .reservedE
  | true,  true,  true,  true  => .reservedF

/-- Why a number is no request. -/
inductive DecodeReject where
  /-- The number has a bit above bit 35: a request word has 36 bits (R60). -/
  | widerThanRequestWord
  deriving DecidableEq, Repr

/-- `decode` on any number, bit 0 its least significant bit. -/
def decodeNat (n : Nat) : Except DecodeReject Instr :=
  if n < 2 ^ 36 then .ok (decode (BitVec.ofNat 36 n)) else .error .widerThanRequestWord

/-- The four bits `req[35:32]` of an operation (R68, R69). -/
def opcOf : Instr → BitVec 4
  | .enc0 => 0x0#4
  | .enc1 _ => 0x1#4
  | .enc2 _ _ => 0x2#4
  | .enc3 _ _ _ => 0x3#4
  | .dstart _ => 0x4#4
  | .dgrp _ _ _ _ => 0x5#4
  | .symat _ => 0x6#4
  | .idxof _ => 0x7#4
  | .dstat => 0x8#4
  | .reserved9 => 0x9#4
  | .reservedA => 0xA#4
  | .reservedB => 0xB#4
  | .reservedC => 0xC#4
  | .reservedD => 0xD#4
  | .reservedE => 0xE#4
  | .reservedF => 0xF#4

/-- The payload the assembler writes (R71): the operands in their fields, 0 in every ignored bit. -/
def payloadOf : Instr → Payload
  | .enc0 => 0#32
  | .enc1 b0 => 0#8 ++ b0 ++ 0#8 ++ 0#8
  | .enc2 b0 b1 => 0#8 ++ b0 ++ b1 ++ 0#8
  | .enc3 b0 b1 b2 => 0#8 ++ b0 ++ b1 ++ b2
  | .dstart len => len
  | .dgrp c0 c1 c2 c3 => c0 ++ c1 ++ c2 ++ c3
  | .symat i => 0#24 ++ 0#2 ++ i
  | .idxof c => 0#24 ++ c
  | .dstat => 0#32
  | .reserved9 => 0#32
  | .reservedA => 0#32
  | .reservedB => 0#32
  | .reservedC => 0#32
  | .reservedD => 0#32
  | .reservedE => 0#32
  | .reservedF => 0#32

/-- The request word of an operation (R71). -/
def encode (i : Instr) : Request := mkRequest (opcOf i) (payloadOf i)

/-- The payload bits that an operation code uses (R61): 1 where the format names a field, 0 where it says "ign". -/
def usedPayloadBits (opc : BitVec 4) : Payload :=
  match opc.toNat with
  | 0x1 => 0x00FF0000#32
  | 0x2 => 0x00FFFF00#32
  | 0x3 => 0x00FFFFFF#32
  | 0x4 => 0xFFFFFFFF#32
  | 0x5 => 0xFFFFFFFF#32
  | 0x6 => 0x0000003F#32
  | 0x7 => 0x000000FF#32
  | _ => 0x00000000#32   -- E0, DS and RV use no payload bit

/-- The number a table row's bits make: bit 0 of the one request word is bit 0 of the number; a bit at or above
`nbits` is 0. -/
def tableNumber (nbits w : Nat) : Nat := w % 2 ^ nbits

/-- The operation the decoder reads from a row of the table whose bits are `w`. -/
def decodeTableWord (nbits w : Nat) : Option Instr :=
  match decodeNat (tableNumber nbits w) with
  | .ok i => some i
  | .error _ => none

end Sys2Proof
end

