-- ==== Sys2Proof/Machine/State.lean ====
section
/-! DEFINITION. The machine state as plain data. The spec gives the block six registers and nothing else (R23, R35);
they are `Regs`. Beside them `State` holds the two ends of the one transaction port: what the host has still to
present, and the response word the block returned last. -/

namespace Sys2Proof.Machine

/-- `DEC_STATE` (R24): the document's six states. Codes 6 and 7 are "never taken" and have no constructor
(DEDUCED from R24 and U8, safe: log entry 4). -/
inductive DecState where
  | expectGroup
  | inFinalGroupNoPad
  | inFinalGroupPad1
  | inFinalGroupPad2
  | rejected
  | done
  deriving DecidableEq, Repr

/-- `DEC_ERR` (R27): the recorded error kind, one constructor for each of its four codes. -/
inductive DecErr where
  | none
  | malformedLength
  | invalidCharacter
  | invalidPadding
  deriving DecidableEq, Repr

/-- The six decoder status registers: "the whole architectural state of the block" (R23). -/
structure Regs where
  /-- `DEC_STATE`, 3 bits (R24). -/
  decState : DecState
  /-- `DEC_LEN`, 32 bits: the declared length in characters (R25). -/
  decLen : Len
  /-- `DEC_POS`, 32 bits: the characters consumed so far (R26). -/
  decPos : Len
  /-- `DEC_ERR`, 2 bits (R27). -/
  decErr : DecErr
  /-- `DEC_ERR_INDEX`, 32 bits (R28). -/
  decErrIndex : Len
  /-- `DEC_ERR_CHAR`, 8 bits (R29). -/
  decErrChar : CharCode
  deriving DecidableEq, Repr

/-- The status codes of a response (R140); codes 6 to 15 are never produced and have no constructor
(DEDUCED from R140 and U7, safe: log entry 5). -/
inductive Status where
  | ok
  | malformedLength
  | invalidCharacter
  | invalidPadding
  | illegalRequest
  | protocol
  deriving DecidableEq, Repr

/-- The fields of a response word (R62). -/
structure Response where
  status : Status
  done : Bool
  count : BitVec 3
  errIndex : Len
  errChar : CharCode
  data : Payload
  deriving DecidableEq, Repr

/-- What the host can do to the block (R16, R17): present a request word, or assert reset between two transactions
(R170). -/
inductive HostInput where
  | request (w : Request)
  | reset
  deriving DecidableEq, Repr

structure State where
  /-- The six registers (R23). -/
  regs : Regs
  /-- The MODEL's own field (DESIGN CHOICE, safe: log entry 1): what the host will still do, in the order it does it
  (R21, R49). -/
  pending : List HostInput
  /-- The MODEL's own field (DESIGN CHOICE, safe: log entry 2): the response word returned by the latest transaction;
  none after a reset. -/
  response : Option Response
  deriving DecidableEq, Repr

/-- Reasons to stop with a fault: there is none. "There is no other fault" (R147); the spec's errors are status codes
of a response, after which the machine goes on (DEDUCED, unsafe: log entry 11). -/
inductive Fault where
  deriving DecidableEq, Repr

/-- Reasons to give no meaning. -/
inductive Refusal where
  /-- Raised by `exec` for an operation that has no meaning yet; safe. No arm raises it. -/
  | notModelled (mnemonic : String)
  deriving DecidableEq, Repr

/-- The reset value of every register (R34). -/
def Regs.reset : Regs where
  decState := .done
  decLen := 0#32
  decPos := 0#32
  decErr := .none
  decErrIndex := 0#32
  decErrChar := 0#8

/-- The machine right after power-on (R34, R170): the registers at their reset values, no request presented, no
response returned. -/
def State.reset : State where
  regs := Regs.reset
  pending := []
  response := none

end Sys2Proof.Machine
end

