-- ==== Sys2Proof/Machine/Rom.lean ====
section
/-! DEFINITION. The three read-only address spaces (R40 to R43) with their full contents (R80 to R83). They are
constants, not fields of the state (R35; log entry 7). The character codes are US-ASCII as R81 gives them, which the spec
marks as general knowledge (UNVERIFIED, unsafe: log entry 8). -/

namespace Sys2Proof.Machine

/-- The words of `symbol_rom`, sixteen to a row as the columns of R81's table stand. -/
def symTable : List SymWord :=
  [0x41#7, 0x42#7, 0x43#7, 0x44#7, 0x45#7, 0x46#7, 0x47#7, 0x48#7,
   0x49#7, 0x4A#7, 0x4B#7, 0x4C#7, 0x4D#7, 0x4E#7, 0x4F#7, 0x50#7] ++
  [0x51#7, 0x52#7, 0x53#7, 0x54#7, 0x55#7, 0x56#7, 0x57#7, 0x58#7,
   0x59#7, 0x5A#7, 0x61#7, 0x62#7, 0x63#7, 0x64#7, 0x65#7, 0x66#7] ++
  [0x67#7, 0x68#7, 0x69#7, 0x6A#7, 0x6B#7, 0x6C#7, 0x6D#7, 0x6E#7,
   0x6F#7, 0x70#7, 0x71#7, 0x72#7, 0x73#7, 0x74#7, 0x75#7, 0x76#7] ++
  [0x77#7, 0x78#7, 0x79#7, 0x7A#7, 0x30#7, 0x31#7, 0x32#7, 0x33#7,
   0x34#7, 0x35#7, 0x36#7, 0x37#7, 0x38#7, 0x39#7, 0x2B#7, 0x2F#7]

/-- A valid entry of the inverse table, holding index `n`. -/
def valid (n : Nat) : Option Index := some (BitVec.ofNat 6 n)

/-- A row of sixteen entries none of which is valid. -/
def invalidRow : List (Option Index) := List.replicate 16 none

/-- The lower half of the inverse table, row `c[7:4]`, column `c[3:0]`, as R82's table shows it: `none` is an entry
shown `-` or `(0)`. Rows 8 to F hold no valid entry. -/
def invTable : List (Option Index) :=
  invalidRow ++
  invalidRow ++
  [none, none, none, none, none, none, none, none, none, none, none, valid 62, none, none, none, valid 63] ++
  [valid 52, valid 53, valid 54, valid 55, valid 56, valid 57, valid 58, valid 59,
   valid 60, valid 61, none, none, none, none, none, none] ++
  [none, valid 0, valid 1, valid 2, valid 3, valid 4, valid 5, valid 6,
   valid 7, valid 8, valid 9, valid 10, valid 11, valid 12, valid 13, valid 14] ++
  [valid 15, valid 16, valid 17, valid 18, valid 19, valid 20, valid 21, valid 22,
   valid 23, valid 24, valid 25, none, none, none, none, none] ++
  [none, valid 26, valid 27, valid 28, valid 29, valid 30, valid 31, valid 32,
   valid 33, valid 34, valid 35, valid 36, valid 37, valid 38, valid 39, valid 40] ++
  [valid 41, valid 42, valid 43, valid 44, valid 45, valid 46, valid 47, valid 48,
   valid 49, valid 50, valid 51, none, none, none, none, none]

/-- The entry of the inverse table at a character code. -/
def invEntry (c : CharCode) : Option Index := invTable.getD c.toNat none

/-- `MemRead(SYM, i)` (R41). Every address is populated, so the default is never read. -/
def memReadSym (i : Index) : SymWord := symTable.getD i.toNat 0#7

/-- `MemRead(INV, c)` (R42): the index at a valid entry, `INV_FILL` at every other. -/
def memReadInv (c : CharCode) : Index := (invEntry c).getD Config.invFill

/-- `MemRead(INVV, c)` (R43): 1 exactly at the valid entries. -/
def memReadInvv (c : CharCode) : BitVec 1 := BitVec.ofBool (invEntry c).isSome

/-- `is_pad(c)` (R111): decided on the character code, not by the table (R53). -/
def isPad (c : CharCode) : Bool := c == Config.pad

/-- `valid(c)` (R111). -/
def isValid (c : CharCode) : Bool := memReadInvv c == 1#1

/-- A character that no position may hold: neither `=` nor in the alphabet (R113, R142). -/
def isOffending (c : CharCode) : Bool := !isPad c && !isValid c

end Sys2Proof.Machine
end

