-- ==== Sys2Proof/Machine/Flags.lean ====
section
/-! DEFINITION. The block has no flags and no condition codes (R22). What is computed in their place: the numeric codes
of the state, error and status registers (R24, R27, R140), the two predicates over the registers (R31), and whether a
group is the last one of its message (R118). -/

namespace Sys2Proof.Machine

/-- The code of `DEC_STATE` (R24). -/
def DecState.code : DecState → BitVec 3
  | .expectGroup => 0#3
  | .inFinalGroupNoPad => 1#3
  | .inFinalGroupPad1 => 2#3
  | .inFinalGroupPad2 => 3#3
  | .rejected => 4#3
  | .done => 5#3

/-- The code of `DEC_ERR` (R27). -/
def DecErr.code : DecErr → BitVec 2
  | .none => 0#2
  | .malformedLength => 1#2
  | .invalidCharacter => 2#2
  | .invalidPadding => 3#2

/-- The code of a status (R140). -/
def Status.code : Status → BitVec 4
  | .ok => 0#4
  | .malformedLength => 1#4
  | .invalidCharacter => 2#4
  | .invalidPadding => 3#4
  | .illegalRequest => 4#4
  | .protocol => 5#4

/-- The status a code names; a reserved code (6 to 15) names none: no such response exists (R140, U7). -/
def Status.ofCode (c : BitVec 4) : Option Status :=
  match c.toNat with
  | 0 => some .ok
  | 1 => some .malformedLength
  | 2 => some .invalidCharacter
  | 3 => some .invalidPadding
  | 4 => some .illegalRequest
  | 5 => some .protocol
  | _ => none

/-- The status a response shows for the recorded error: codes 0 to 3 are the values of `DEC_ERR` (R140). -/
def DecErr.status : DecErr → Status
  | .none => .ok
  | .malformedLength => .malformedLength
  | .invalidCharacter => .invalidCharacter
  | .invalidPadding => .invalidPadding

/-- `accepting` (R31): one more DGRP belongs to the current message. -/
def accepting (r : Regs) : Bool :=
  r.decState == .expectGroup ||
    (r.decState == .rejected && r.decErr != .malformedLength && decide (r.decPos < r.decLen))

/-- `final` (R31): the message-level result can no longer change. -/
def isFinal (r : Regs) : Bool :=
  r.decState == .done ||
    (r.decState == .rejected &&
      (r.decErr == .malformedLength || r.decErr == .invalidCharacter || r.decPos == r.decLen))

/-- `last` (R118): the group now presented ends the declared length. The sum is taken modulo 2^32, as the
register holds it; R15 says that no reachable state wraps (DESIGN CHOICE, unsafe only outside R30: log entry 6). -/
def isLastGroup (r : Regs) : Bool := r.decPos + 4#32 == r.decLen

end Sys2Proof.Machine
end

