-- ==== Sys2Proof/Machine/Operands.lean ====
section
/-! DEFINITION. Operand assembly and the lanes of a group (R44, R45, R65 to R67). Decoding has already taken the fields
out of the payload; here they are put together as the datapath sees them. -/

namespace Sys2Proof.Machine

/-- The byte group `g = {b0, b1, b2}`, first byte most significant (R44). The operation code says how many bytes are
valid; the meaning of ENC0, ENC1 or ENC2 gives 0x00 for each invalid one (R65). -/
def byteGroup (b0 b1 b2 : Byte) : ByteGroup := b0 ++ b1 ++ b2

/-- The four characters of a word, first character in the most significant lane (R45). -/
def charLanes (w : Payload) : List CharCode := [lane0 w, lane1 w, lane2 w, lane3 w]

/-- The word `{ch0, ch1, ch2, ch3}` (R45). -/
def packChars (ch0 ch1 ch2 ch3 : CharCode) : Payload := ch0 ++ ch1 ++ ch2 ++ ch3

/-- The three bytes in the `data` of a DGRP response, first byte in `data[23:16]` (R44). -/
def byteLanes (data : Payload) : List Byte := [lane1 data, lane2 data, lane3 data]

/-- The word `{0x00, byte0, byte1, byte2}` (R120). -/
def packBytes (b0 b1 b2 : Byte) : Payload := 0#8 ++ b0 ++ b1 ++ b2

/-- A `SYM` word in an 8-bit character lane, `zext_8` (R52). -/
def charOfSym (w : SymWord) : CharCode := w.zeroExtend 8

end Sys2Proof.Machine
end

