-- ==== Sys2Proof/Machine/Ops.lean ====
section
/-! DEFINITION. The operations the families share: building responses (R62, R63), the group functions of encoder and
decoder (R91, R113, R114), recording a decode error and clearing it (R151, R152), and the host's end of the port
(R49, R170). -/

namespace Sys2Proof.Machine

/-! ### Responses -/

/-- "Every field not mentioned in a row is 0" (R63). -/
def Response.blank : Response where
  status := .ok
  done := false
  count := 0#3
  errIndex := 0#32
  errChar := 0#8
  data := 0#32

/-- The response word `rsp[79:0]` (R62). -/
def Response.word (r : Response) : ResponseWord :=
  r.status.code ++ BitVec.ofBool r.done ++ r.count ++ r.errIndex ++ r.errChar ++ r.data

/-- The response a word stands for: none where its status code is reserved (R62, U7). -/
def Response.ofWord (w : ResponseWord) : Option Response :=
  (Status.ofCode (w.extractLsb' 76 4)).map fun st =>
    { status := st
      done := w.getLsbD 75
      count := w.extractLsb' 72 3
      errIndex := w.extractLsb' 40 32
      errChar := w.extractLsb' 32 8
      data := w.extractLsb' 0 32 }

/-- A response of an operation that touches no decoder register: `count` and `data` only (R63). -/
def plainResponse (count : BitVec 3) (data : Payload) : Response :=
  { Response.blank with count := count, data := data }

/-- A response of a decoder operation: `done` is `final`, the error fields are the registers, all after the
transaction's own writes (R62, R63). -/
def decoderResponse (r : Regs) (status : Status) (count : BitVec 3) (data : Payload) : Response where
  status := status
  done := isFinal r
  count := count
  errIndex := r.decErrIndex
  errChar := r.decErrChar
  data := data

/-- A transaction ends: its registers and its response word take effect together (R47). -/
def respond (s : State) (t : Regs × Response) : State :=
  { s with regs := t.1, response := some t.2 }

/-- A transaction that writes no register. -/
def respondOnly (s : State) (rsp : Response) : State := respond s (s.regs, rsp)

/-! ### The encoder's group function -/

/-- `enc_group(n, g)` (R91): the count of valid characters and the four of them in one word. -/
def encGroup (n : Fin 4) (g : ByteGroup) : BitVec 3 × Payload :=
  if n = 0 then (0#3, 0#32)
  else
    let ch0 := charOfSym (memReadSym (g.extractLsb' 18 6))
    let ch1 := charOfSym (memReadSym (g.extractLsb' 12 6))
    let ch2 := if 2 ≤ n then charOfSym (memReadSym (g.extractLsb' 6 6)) else Config.pad
    let ch3 := if n = 3 then charOfSym (memReadSym (g.extractLsb' 0 6)) else Config.pad
    (4#3, packChars ch0 ch1 ch2 ch3)

/-- An encoder transaction (R92 to R95): `enc_group` of the byte group, no register read or written. -/
def encoderTransaction (n : Fin 4) (g : ByteGroup) (s : State) : State :=
  respondOnly s (plainResponse (encGroup n g).1 (encGroup n g).2)

/-! ### The decoder's group functions -/

/-- The lowest lane that holds an offending character, with that character (R113, R119). -/
def firstOffending (c0 c1 c2 c3 : CharCode) : Option (Fin 4 × CharCode) :=
  if isOffending c0 then some (0, c0)
  else if isOffending c1 then some (1, c1)
  else if isOffending c2 then some (2, c2)
  else if isOffending c3 then some (3, c3)
  else none

/-- `pack` (R114), reading indices from the inverse ROM `inv`: a padding position contributes the constant 0, not a
ROM word (R53). `p` is the number of padding positions. -/
def packVia (inv : CharCode → Index) (c0 c1 c2 c3 : CharCode) (p : Fin 3) : Byte × Byte × Byte :=
  let idx0 := inv c0
  let idx1 := inv c1
  let idx2 := if p ≤ 1 then inv c2 else 0#6
  let idx3 := if p = 0 then inv c3 else 0#6
  (idx0 ++ idx1.extractLsb' 4 2, idx1.extractLsb' 0 4 ++ idx2.extractLsb' 2 4, idx2.extractLsb' 0 2 ++ idx3)

/-- The result of `dec_group` (R113). -/
inductive GroupResult where
  | badChar (lane : Fin 4) (c : CharCode)
  | badPad
  | bytes (count : BitVec 3) (byte0 byte1 byte2 : Byte)
  deriving DecidableEq, Repr

/-- The number of padding characters of a group's `=` pattern, where the pattern is allowed (R113): none but in the
last group, there `(0,0,0,0)`, `(0,0,0,1)` or `(0,0,1,1)`. -/
def padCount (c0 c1 c2 c3 : CharCode) (last : Bool) : Option (Fin 3) :=
  match isPad c0, isPad c1, isPad c2, isPad c3 with
  | false, false, false, false => some 0
  | false, false, false, true => if last then some 1 else none
  | false, false, true, true => if last then some 2 else none
  | _, _, _, _ => none

/-- `Bytes(3 - p, ..)`, the unemitted bytes 0x00 (R113). -/
def emitBytes (p : Fin 3) (b : Byte × Byte × Byte) : GroupResult :=
  .bytes (3#3 - BitVec.ofNat 3 p.val) b.1 (if p ≤ 1 then b.2.1 else 0#8) (if p = 0 then b.2.2 else 0#8)

/-- `dec_group` (R113), reading indices from the inverse ROM `inv`. -/
def decGroupVia (inv : CharCode → Index) (c0 c1 c2 c3 : CharCode) (last : Bool) : GroupResult :=
  match firstOffending c0 c1 c2 c3 with
  | some (j, c) => .badChar j c
  | none =>
    match padCount c0 c1 c2 c3 last with
    | none => .badPad
    | some p => emitBytes p (packVia inv c0 c1 c2 c3 p)

/-- `pack` (R114) with the block's own `INV`. -/
def pack (c0 c1 c2 c3 : CharCode) (p : Fin 3) : Byte × Byte × Byte := packVia memReadInv c0 c1 c2 c3 p

/-- `dec_group` (R113) with the block's own `INV`. -/
def decGroup (c0 c1 c2 c3 : CharCode) (last : Bool) : GroupResult := decGroupVia memReadInv c0 c1 c2 c3 last

/-! ### Errors: entry and exit

There is no trap (R151): "taking an exception" is recording a decode error in the registers, and the error is left by
DSTART or reset, which clear it (R152). -/

/-- `DecodeError` (R11), the error's index as wide as its register. -/
inductive DecodeError where
  | malformedLength
  | invalidCharacter (index : Len) (character : CharCode)
  | invalidPadding
  deriving DecidableEq, Repr

/-- `raise <Error>(info)` (R10, R151): the register writes of R116, R118 and R119, and no other. -/
def raise (e : DecodeError) (r : Regs) : Regs :=
  match e with
  | .malformedLength => { r with decState := .rejected, decErr := .malformedLength }
  | .invalidCharacter index c =>
    { r with decState := .rejected, decErr := .invalidCharacter, decErrIndex := index, decErrChar := c }
  | .invalidPadding => { r with decState := .rejected, decErr := .invalidPadding }

/-- The registers of a fresh message of `len` characters before its length is judged: whatever error was recorded is
cleared (R116, R152). -/
def clearForMessage (len : Len) (r : Regs) : Regs :=
  { r with decLen := len, decPos := 0#32, decErr := .none, decErrIndex := 0#32, decErrChar := 0#8 }

/-! ### The host's end of the port -/

/-- The host asserts reset (R170): every register takes its reset value and no response word is returned. What the
host does afterwards is still to come (DESIGN CHOICE, safe: log entry 15). -/
def resetInput (s : State) : State := { s with regs := Regs.reset, response := none }

/-- The host puts a request word before everything it was going to present. -/
def presentNext (s : State) (w : Request) : State := { s with pending := .request w :: s.pending }

/-- The state after taking one input off the host's list. -/
def takeInput (s : State) (rest : List HostInput) : State := { s with pending := rest }

end Sys2Proof.Machine
end

