-- ==== Sys2Proof/Machine/Decoder.lean ====
section
/-! DEFINITION. The family of `base64_decoder`: DSTART, DGRP and DSTAT over the state machine of R115. -/

namespace Sys2Proof.Machine

/-- The registers after DSTART (R116): a fresh message, rejected at once where its length is no multiple of 4. -/
def startMessage (len : Len) (r : Regs) : Regs :=
  let fresh := clearForMessage len r
  if len.extractLsb' 0 2 ≠ 0b00#2 then raise .malformedLength fresh
  else if len = 0#32 then { fresh with decState := .done }
  else { fresh with decState := .expectGroup }

/-- DSTART (R116). -/
def execDstart (len : Len) (s : State) : Host.Outcome State Fault Refusal :=
  let r := startMessage len s.regs
  .next (respond s (r, decoderResponse r r.decErr.status 0#3 0#32))

/-- The transient state in which the last group is handled, by the bytes it yields (R24, R118). -/
def finalGroupState (count : BitVec 3) : DecState :=
  if count = 3#3 then .inFinalGroupNoPad
  else if count = 2#3 then .inFinalGroupPad1
  else .inFinalGroupPad2

/-- "Reaching end of input": the transient states pass to `Done` inside the transaction (R24, R115; DEDUCED, safe: log
entry 12). -/
def endOfInput : DecState → DecState
  | .inFinalGroupNoPad => .done
  | .inFinalGroupPad1 => .done
  | .inFinalGroupPad2 => .done
  | .expectGroup => .expectGroup
  | .rejected => .rejected
  | .done => .done

/-- What an accepted group emits: `count` bytes, as the word they stand in. -/
abbrev Emitted := BitVec 3 × Payload

/-- No byte is emitted. -/
def emitNone : Emitted := (0#3, packBytes 0#8 0#8 0#8)

/-- DGRP accepted in `ExpectGroup` (R118), up to the common ending. -/
def decodeGroup (c0 c1 c2 c3 : CharCode) (r : Regs) : Regs × Emitted :=
  match decGroup c0 c1 c2 c3 (isLastGroup r) with
  | .badChar j c => (raise (.invalidCharacter (r.decPos + BitVec.ofNat 32 j.val) c) r, emitNone)
  | .badPad => (raise .invalidPadding r, emitNone)
  | .bytes k b0 b1 b2 =>
    (if isLastGroup r then { r with decState := endOfInput (finalGroupState k) } else r, (k, packBytes b0 b1 b2))

/-- DGRP accepted in `Rejected` (R119), up to the common ending: only an offending character that outranks a recorded
padding error is still looked for. -/
def absorbGroup (c0 c1 c2 c3 : CharCode) (r : Regs) : Regs × Emitted :=
  if r.decErr = .invalidPadding then
    match firstOffending c0 c1 c2 c3 with
    | some (j, c) => (raise (.invalidCharacter (r.decPos + BitVec.ofNat 32 j.val) c) r, emitNone)
    | none => (r, emitNone)
  else (r, emitNone)

/-- The common ending of an accepted DGRP (R120). -/
def finishGroup (t : Regs × Emitted) : Regs × Response :=
  let r := { t.1 with decPos := t.1.decPos + 4#32 }
  (r, decoderResponse r r.decErr.status t.2.1 t.2.2)

/-- DGRP (R117): the acceptance test, then the group. -/
def groupTransaction (c0 c1 c2 c3 : CharCode) (r : Regs) : Regs × Response :=
  if accepting r then
    if r.decState = .expectGroup then finishGroup (decodeGroup c0 c1 c2 c3 r)
    else finishGroup (absorbGroup c0 c1 c2 c3 r)
  else (r, decoderResponse r .protocol 0#3 0#32)

/-- DGRP (R117 to R120). -/
def execDgrp (c0 c1 c2 c3 : CharCode) (s : State) : Host.Outcome State Fault Refusal :=
  .next (respond s (groupTransaction c0 c1 c2 c3 s.regs))

/-- DSTAT (R121): the status and `DEC_POS`, nothing written. -/
def execDstat (s : State) : Host.Outcome State Fault Refusal :=
  .next (respondOnly s (decoderResponse s.regs s.regs.decErr.status 0#3 s.regs.decPos))

end Sys2Proof.Machine
end

