-- ==== Sys2Proof/Machine/Encoder.lean ====
section
/-! DEFINITION. The family of `base64_encoder`: ENC0 to ENC3 (R90 to R96). No operation of it reads or writes a register
or has an error path (R90, R146). -/

namespace Sys2Proof.Machine

/-- ENC0 (R92): an empty group yields no character. -/
def execEnc0 (s : State) : Host.Outcome State Fault Refusal :=
  .next (encoderTransaction 0 (byteGroup 0#8 0#8 0#8) s)

/-- ENC1 (R93): a one-byte tail. -/
def execEnc1 (b0 : Byte) (s : State) : Host.Outcome State Fault Refusal :=
  .next (encoderTransaction 1 (byteGroup b0 0#8 0#8) s)

/-- ENC2 (R94): a two-byte tail. -/
def execEnc2 (b0 b1 : Byte) (s : State) : Host.Outcome State Fault Refusal :=
  .next (encoderTransaction 2 (byteGroup b0 b1 0#8) s)

/-- ENC3 (R95): a full group. -/
def execEnc3 (b0 b1 b2 : Byte) (s : State) : Host.Outcome State Fault Refusal :=
  .next (encoderTransaction 3 (byteGroup b0 b1 b2) s)

end Sys2Proof.Machine
end

