-- ==== Sys2Proof/Machine/Reserved.lean ====
section
/-! DEFINITION. The reserved operation codes 0x9 to 0xF (R69, R144): a request with one of them is answered with status
4 (IllegalRequest) and changes no register. -/

namespace Sys2Proof.Machine

/-- The answer to a reserved operation code: "status = 4 (IllegalRequest) with every other response field 0" (R69). -/
def illegalRequest (s : State) : State := respondOnly s { Response.blank with status := .illegalRequest }

/-- Operation code 0x9 (R69). -/
def execReserved9 (s : State) : Host.Outcome State Fault Refusal := .next (illegalRequest s)

/-- Operation code 0xA (R69). -/
def execReservedA (s : State) : Host.Outcome State Fault Refusal := .next (illegalRequest s)

/-- Operation code 0xB (R69). -/
def execReservedB (s : State) : Host.Outcome State Fault Refusal := .next (illegalRequest s)

/-- Operation code 0xC (R69). -/
def execReservedC (s : State) : Host.Outcome State Fault Refusal := .next (illegalRequest s)

/-- Operation code 0xD (R69). -/
def execReservedD (s : State) : Host.Outcome State Fault Refusal := .next (illegalRequest s)

/-- Operation code 0xE (R69). -/
def execReservedE (s : State) : Host.Outcome State Fault Refusal := .next (illegalRequest s)

/-- Operation code 0xF (R69). -/
def execReservedF (s : State) : Host.Outcome State Fault Refusal := .next (illegalRequest s)

end Sys2Proof.Machine
end

