-- ==== Sys2Proof/Machine/RomLookup.lean ====
section
/-! DEFINITION. The family that reads the ROMs directly: SYMAT and IDXOF (R84, R85). -/

namespace Sys2Proof.Machine

/-- SYMAT (R84): the character code in `data[7:0]`, `data[7] = 0`. -/
def execSymat (i : Index) (s : State) : Host.Outcome State Fault Refusal :=
  .next (respondOnly s (plainResponse 1#3 ((memReadSym i).zeroExtend 32)))

/-- IDXOF (R85): `count` is the validity bit, `data` the raw ROM word, also where it is not valid. -/
def execIdxof (c : CharCode) (s : State) : Host.Outcome State Fault Refusal :=
  .next (respondOnly s (plainResponse ((memReadInvv c).zeroExtend 3) ((memReadInv c).zeroExtend 32)))

end Sys2Proof.Machine
end

