-- ==== Sys2Proof/Machine/Dispatch.lean ====
section
/-! DEFINITION. One arm for every operation, each a call of its meaning. -/

namespace Sys2Proof.Machine

def exec (i : Instr) (s : State) : Host.Outcome State Fault Refusal :=
  match i with
  | .enc0 => Sys2Proof.Machine.execEnc0 s
  | .enc1 b0 => Sys2Proof.Machine.execEnc1 b0 s
  | .enc2 b0 b1 => Sys2Proof.Machine.execEnc2 b0 b1 s
  | .enc3 b0 b1 b2 => Sys2Proof.Machine.execEnc3 b0 b1 b2 s
  | .dstart len => Sys2Proof.Machine.execDstart len s
  | .dgrp c0 c1 c2 c3 => Sys2Proof.Machine.execDgrp c0 c1 c2 c3 s
  | .symat i6 => Sys2Proof.Machine.execSymat i6 s
  | .idxof c => Sys2Proof.Machine.execIdxof c s
  | .dstat => Sys2Proof.Machine.execDstat s
  | .reserved9 => Sys2Proof.Machine.execReserved9 s
  | .reservedA => Sys2Proof.Machine.execReservedA s
  | .reservedB => Sys2Proof.Machine.execReservedB s
  | .reservedC => Sys2Proof.Machine.execReservedC s
  | .reservedD => Sys2Proof.Machine.execReservedD s
  | .reservedE => Sys2Proof.Machine.execReservedE s
  | .reservedF => Sys2Proof.Machine.execReservedF s

end Sys2Proof.Machine
end

