-- ==== Sys2Proof/Machine/Step.lean ====
section
/-! DEFINITION. One step: the block takes the host's next input. A request word is decoded and executed (one
transaction, R16, R47); reset is one more kind of step (R170); with nothing presented the block holds its state
(R156, R176; DEDUCED, safe: log entry 3). -/

namespace Sys2Proof.Machine

def step (s : State) : Host.Outcome State Fault Refusal :=
  match s.pending with
  | [] => .next s
  | .reset :: rest => .next (resetInput (takeInput s rest))
  | .request w :: rest => exec (decode w) (takeInput s rest)

/-- `s` with the request word of a table row presented next (36 bits reach the port, R60; DESIGN CHOICE, safe: log
entry 10). -/
def State.withFetchWord (s : State) (nbits w : Nat) : State :=
  presentNext s (BitVec.ofNat 36 (tableNumber nbits w))

end Sys2Proof.Machine
end

