-- ==== Sys2Proof/Machine/Message.lean ====
section
/-! DEFINITION. The message level: the document's functions `encode` and `decode` over whole sequences (R100, R111), the
transaction sequences that compute them (R72, R73), the transcript of a run, and the result read from it (R122). None of
this is state of the block (R33). Log entry 13 says what the message level fixes beyond the spec. -/

namespace Sys2Proof.Machine

/-! ### The functions -/

/-- `encode(b)` (R100): consecutive groups of three bytes, then the tail. -/
def encodeMessage : List Byte → List CharCode
  | b0 :: b1 :: b2 :: rest => charLanes (encGroup 3 (byteGroup b0 b1 b2)).2 ++ encodeMessage rest
  | [b0, b1] => charLanes (encGroup 2 (byteGroup b0 b1 0#8)).2
  | [b0] => charLanes (encGroup 1 (byteGroup b0 0#8 0#8)).2
  | [] => []

/-- Step 2 of R111: the earliest offending character of a sequence whose first character has index `i`. -/
def earliestOffending (i : Nat) : List CharCode → Option (Nat × CharCode)
  | [] => none
  | c :: rest => if isOffending c then some (i, c) else earliestOffending (i + 1) rest

/-- The character at index `i` is `=`. -/
def padAt (t : List CharCode) (i : Nat) : Bool := isPad (t.getD i 0#8)

/-- Step 3 of R111: some `=` stands neither last nor second last before a last `=`. Indices are compared without
subtraction: `i = n-1` is `i + 1 = n`. -/
def misplacedPad (t : List CharCode) : Bool :=
  (List.range t.length).any fun i =>
    padAt t i && !(i + 1 == t.length || (i + 2 == t.length && padAt t (i + 1)))

/-- The number of padding characters of a last group (R111). -/
def lastPadCount (c2 c3 : CharCode) : Fin 3 := if isPad c3 then (if isPad c2 then 2 else 1) else 0

/-- "Decoding proper" (R111): every group but the last gives three bytes, the last one `3 - p`. -/
def decodeBytes : List CharCode → List Byte
  | [c0, c1, c2, c3] =>
    let p := lastPadCount c2 c3
    let b := pack c0 c1 c2 c3 p
    [b.1, b.2.1, b.2.2].take (3 - p.val)
  | c0 :: c1 :: c2 :: c3 :: rest =>
    let b := pack c0 c1 c2 c3 0
    [b.1, b.2.1, b.2.2] ++ decodeBytes rest
  | _ => []

/-- `decode(t)` (R111): the three checks in order, then the bytes. -/
def decodeMessage (t : List CharCode) : Except DecodeError (List Byte) :=
  if t.length % 4 ≠ 0 then .error .malformedLength
  else
    match earliestOffending 0 t with
    | some (i, c) => .error (.invalidCharacter (BitVec.ofNat 32 i) c)
    | none => if misplacedPad t then .error .invalidPadding else .ok (decodeBytes t)

/-! ### The transaction sequences -/

/-- The operations `ENCODE b` expands to (R72). -/
def encodeOps : List Byte → List Instr
  | b0 :: b1 :: b2 :: rest => .enc3 b0 b1 b2 :: encodeOps rest
  | [b0, b1] => [.enc2 b0 b1]
  | [b0] => [.enc1 b0]
  | [] => []

/-- One DGRP for every four characters. -/
def groupOps : List CharCode → List Instr
  | c0 :: c1 :: c2 :: c3 :: rest => .dgrp c0 c1 c2 c3 :: groupOps rest
  | _ => []

/-- The operations `DECODE t` expands to (R73): the groups follow only where the length is a multiple of 4. -/
def decodeOps (t : List CharCode) : List Instr :=
  .dstart (BitVec.ofNat 32 t.length) :: (if t.length % 4 = 0 then groupOps t else [])

/-- The host presents request words, one after the other, and nothing else. -/
def presentAll (s : State) (ws : List Request) : State := { s with pending := ws.map .request }

/-! ### What a run returns -/

/-- What happens on the port in one step: the host resets the block, or a request word is answered by a response word. -/
inductive PortEvent where
  | reset
  | answered (w : Request) (rsp : Response)
  deriving DecidableEq, Repr

/-- The input the host gave. -/
def PortEvent.input : PortEvent → HostInput
  | .reset => .reset
  | .answered w _ => .request w

/-- The response word that came back: a reset returns none (R170). -/
def PortEvent.responses : PortEvent → List Response
  | .reset => []
  | .answered _ rsp => [rsp]

/-- Everything that happens on the port in the next `k` steps, in order (R18). -/
def transcript : Nat → State → List PortEvent
  | 0, _ => []
  | k + 1, s =>
    match s.pending, step s with
    | .reset :: _, .next s' => .reset :: transcript k s'
    | .request w :: _, .next s' => (s'.response.toList.map fun rsp => .answered w rsp) ++ transcript k s'
    | _, _ => []

/-- The transcript of everything the host is going to present. -/
def fullTranscript (s : State) : List PortEvent := transcript s.pending.length s

/-- The first `count` characters of an encoder response (R72). -/
def validChars (r : Response) : List CharCode := (charLanes r.data).take r.count.toNat

/-- The result of an ENCODE expansion: "the concatenation of the valid characters of the responses" (R72). -/
def encodedText (tr : List PortEvent) : List CharCode := (tr.flatMap PortEvent.responses).flatMap validChars

/-! ### The decode messages of a run (R122) -/

/-- A DSTART request. -/
def isDstart (w : Request) : Bool := reqOpc w == 0x4#4

/-- A DGRP request. -/
def isDgrp (w : Request) : Bool := reqOpc w == 0x5#4

/-- A request that can belong to a decode message: DSTART or DGRP. Every other leaves the messages alone (R49). -/
def isMessageRequest (w : Request) : Bool := isDstart w || isDgrp w

/-- A DGRP that the block accepted: status 5 is the answer exactly where it is not (R117, R145). -/
def isAcceptedGroup (w : Request) (rsp : Response) : Bool := isDgrp w && rsp.status != .protocol

/-- A decode message: "one DSTART and the DGRP transactions accepted after it" (R122), by their responses. -/
structure DecodeMessage where
  start : Response
  groups : List Response
  deriving DecidableEq, Repr

/-- The responses of a message, in order. -/
def DecodeMessage.responses (m : DecodeMessage) : List Response := m.start :: m.groups

/-- One more event before a transcript that is already cut into the groups that stand before its first DSTART or reset
and its messages: DSTART opens a message with those groups, a reset ends whatever message was open, an accepted DGRP is
one more group, and nothing else takes part. -/
def prependEvent (e : PortEvent) (cut : List Response × List DecodeMessage) : List Response × List DecodeMessage :=
  match e with
  | .reset => ([], cut.2)
  | .answered w rsp =>
    if isDstart w then ([], ⟨rsp, cut.1⟩ :: cut.2)
    else if isAcceptedGroup w rsp then (rsp :: cut.1, cut.2)
    else cut

/-- A transcript cut at every DSTART and reset (R122): the accepted groups of the message that was open before it, and
the messages opened in it. -/
def splitMessages (tr : List PortEvent) : List Response × List DecodeMessage := tr.foldr prependEvent ([], [])

/-- The decode messages opened in a transcript, in order. -/
def messages (tr : List PortEvent) : List DecodeMessage := (splitMessages tr).2

/-- The responses to every DSTART and DGRP of a transcript, accepted or not. -/
def decoderResponses (tr : List PortEvent) : List Response :=
  (tr.filter fun e => match e with
    | .reset => false
    | .answered w _ => isMessageRequest w).flatMap PortEvent.responses

/-- The first `count` bytes of a DGRP response (R122). -/
def validBytes (r : Response) : List Byte := (byteLanes r.data).take r.count.toNat

/-- The message trace (R122). -/
def messageTrace (m : DecodeMessage) : List Byte := m.groups.flatMap validBytes

/-- What a response with `done = 1` says of its message (R122). Statuses 4 and 5 answer no transaction of a message
(R144, R145). -/
def resultFrom (m : DecodeMessage) (r : Response) : Option (Except DecodeError (List Byte)) :=
  match r.status with
  | .ok => some (.ok (messageTrace m))
  | .malformedLength => some (.error .malformedLength)
  | .invalidCharacter => some (.error (.invalidCharacter r.errIndex r.errChar))
  | .invalidPadding => some (.error .invalidPadding)
  | .illegalRequest => none
  | .protocol => none

/-- The message result (R122): none until a response of the message has `done = 1`, then what that response says. -/
def messageResult (m : DecodeMessage) : Option (Except DecodeError (List Byte)) :=
  (m.responses.find? fun r => r.done).bind (resultFrom m)

/-- The results of the decode messages opened in a transcript, in order. -/
def messageResults (tr : List PortEvent) : List (Option (Except DecodeError (List Byte))) :=
  (messages tr).map messageResult

end Sys2Proof.Machine
end

