-- ==== Sys2Proof/Machine/Assembler.lean ====
section
/-! DEFINITION. The assembler syntax (R71 to R73): a line of text to an `AsmLine`, an `AsmLine` to the request words it
stands for. It is no part of the machine; it is how transaction sequences are written down. What R71
does not say of the text (white space, what may stand between quotes, how numbers are spelt, blank lines) is log entry 14
(DESIGN CHOICE, safe). -/

namespace Sys2Proof.Machine

/-! ### From a line to request words -/

/-- The operations of a line whose numbers fit their operands (R71 to R73). -/
def lineOps : AsmLine → List Instr
  | .enc0 => [.enc0]
  | .enc1 b0 => [.enc1 (BitVec.ofNat 8 b0)]
  | .enc2 b0 b1 => [.enc2 (BitVec.ofNat 8 b0) (BitVec.ofNat 8 b1)]
  | .enc3 b0 b1 b2 => [.enc3 (BitVec.ofNat 8 b0) (BitVec.ofNat 8 b1) (BitVec.ofNat 8 b2)]
  | .dstart len => [.dstart (BitVec.ofNat 32 len)]
  | .dgrp c0 c1 c2 c3 => [.dgrp (BitVec.ofNat 8 c0) (BitVec.ofNat 8 c1) (BitVec.ofNat 8 c2) (BitVec.ofNat 8 c3)]
  | .dgrpText text => groupOps (text.map (BitVec.ofNat 8))
  | .symat i => [.symat (BitVec.ofNat 6 i)]
  | .idxof c => [.idxof (BitVec.ofNat 8 c)]
  | .dstat => [.dstat]
  | .encode bytes => encodeOps (bytes.map (BitVec.ofNat 8))
  | .decode text => decodeOps (text.map (BitVec.ofNat 8))

/-- The request words of a line, none where the line is ill formed. -/
def assemble (l : AsmLine) : Option (List Request) :=
  if l.wf then some ((lineOps l).map encode) else none

/-! ### From text to a line -/

/-- A token of a line. -/
inductive Token where
  /-- A mnemonic or a number. -/
  | word (cs : List Char)
  /-- A character in single quotes. -/
  | quoted (c : Char)
  /-- A string in double quotes. -/
  | text (cs : List Char)
  | comma
  deriving DecidableEq, Repr

/-- Where the scanner stands in the line. -/
inductive ScanMode where
  | between
  | inWord (acc : List Char)
  | openQuote
  | closeQuote (c : Char)
  | inText (acc : List Char)
  | inComment
  | bad
  deriving DecidableEq, Repr

/-- A character one may write between quotes: printable (R71), taken as the codes 0x20 to 0x7E. R71 does not say which
characters are printable, nor that a string holds printable ones only (DESIGN CHOICE, safe: log entry 14). -/
def isPrintable (c : Char) : Bool := decide (0x20 ≤ c.toNat) && decide (c.toNat ≤ 0x7E)

/-- One character read outside quotes. White space is the space and the tab (DESIGN CHOICE, safe: log entry 14). -/
def scanPlain (toks : List Token) (c : Char) : List Token × ScanMode :=
  if c = ' ' ∨ c = '\t' then (toks, .between)
  else if c = ',' then (.comma :: toks, .between)
  else if c = ';' then (toks, .inComment)
  else if c = '\'' then (toks, .openQuote)
  else if c = '"' then (toks, .inText [])
  else (toks, .inWord [c])

/-- One character of the line; the tokens and the accumulated characters are kept last first. R71 gives no escapes, and
there are none here (DESIGN CHOICE, safe: log entry 14): a string ends at the next double quote, so code 0x22 cannot stand
in one; a backslash is an ordinary character; any printable character may stand between single quotes, the single quote
itself included; and no quote may follow a word directly. -/
def scanChar (st : List Token × ScanMode) (c : Char) : List Token × ScanMode :=
  match st.2 with
  | .between => scanPlain st.1 c
  | .inWord acc =>
    if c = ' ' ∨ c = '\t' ∨ c = ',' ∨ c = ';' then scanPlain (.word acc.reverse :: st.1) c
    else if c = '\'' ∨ c = '"' then (st.1, .bad)
    else (st.1, .inWord (c :: acc))
  | .openQuote => if isPrintable c then (st.1, .closeQuote c) else (st.1, .bad)
  | .closeQuote q => if c = '\'' then (.quoted q :: st.1, .between) else (st.1, .bad)
  | .inText acc =>
    if c = '"' then (.text acc.reverse :: st.1, .between)
    else if isPrintable c then (st.1, .inText (c :: acc))
    else (st.1, .bad)
  | .inComment => (st.1, .inComment)
  | .bad => (st.1, .bad)

/-- The tokens of a line, none where a quote is not closed or a character cannot stand where it does. -/
def scanLine (line : List Char) : Option (List Token) :=
  let st := line.foldl scanChar ([], .between)
  match st.2 with
  | .between => some st.1.reverse
  | .inWord acc => some (Token.word acc.reverse :: st.1).reverse
  | .inComment => some st.1.reverse
  | .openQuote => none
  | .closeQuote _ => none
  | .inText _ => none
  | .bad => none

/-- The digits in order of their value, every spelling of a digit in its row. R71 does not say which letters a
hexadecimal number may use: here both cases (DESIGN CHOICE, safe: log entry 14). -/
def digitRows : List (List Char) :=
  [['0'], ['1'], ['2'], ['3'], ['4'], ['5'], ['6'], ['7'], ['8'], ['9'],
   ['A', 'a'], ['B', 'b'], ['C', 'c'], ['D', 'd'], ['E', 'e'], ['F', 'f']]

/-- The value of a digit in a base: the place of its row among the first `base`. -/
def digitValue (base : Nat) (c : Char) : Option Nat := (digitRows.take base).findIdx? fun row => row.contains c

/-- Horner's rule, one more digit. -/
def addDigit (base : Nat) (n : Option Nat) (c : Char) : Option Nat :=
  match n, digitValue base c with
  | some n, some d => some (base * n + d)
  | none, _ => none
  | some _, none => none

/-- The number a non-empty run of digits names. -/
def digits (base : Nat) : List Char → Option Nat
  | [] => none
  | c :: cs => (c :: cs).foldl (addDigit base) (some 0)

/-- "Numbers are decimal or `0x` hexadecimal" (R71). Leading zeros count for nothing, and there is no sign, no
separator and no `0X` (DESIGN CHOICE, safe: log entry 14). -/
def number : List Char → Option Nat
  | '0' :: 'x' :: cs => digits 16 cs
  | cs => digits 10 cs

/-- An operand that is a number or a character in single quotes (R71). -/
def operand : Token → Option Nat
  | .word cs => number cs
  | .quoted c => some c.toNat
  | .text _ => none
  | .comma => none

/-- Operands separated by commas, at least one. -/
def operands : List Token → Option (List Nat)
  | [] => none
  | [t] => (operand t).map fun n => [n]
  | t :: .comma :: rest =>
    match operand t, operands rest with
    | some n, some ns => some (n :: ns)
    | _, _ => none
  | _ :: _ :: _ => none

/-- The line a mnemonic and its operands make. Only a character operand may be written in quotes (R71).
Mnemonics are upper case, and an operand too many or too few is no line (DESIGN CHOICE, safe: log entry 14). -/
def lineOf (mnemonic : List Char) (args : List Token) : Option AsmLine :=
  let plain := args.all fun t => match t with
    | .quoted _ => false
    | .word _ => true
    | .text _ => true
    | .comma => true
  if mnemonic = ['E', 'N', 'C', '0'] then (if args = [] then some .enc0 else none)
  else if mnemonic = ['D', 'S', 'T', 'A', 'T'] then (if args = [] then some .dstat else none)
  else if mnemonic = ['E', 'N', 'C', 'O', 'D', 'E'] then
    if args = [] then some (.encode []) else if plain then (operands args).map .encode else none
  else if mnemonic = ['D', 'E', 'C', 'O', 'D', 'E'] then
    match args with
    | [.text cs] => some (.decode (cs.map Char.toNat))
    | _ => none
  else if mnemonic = ['D', 'G', 'R', 'P'] then
    match args, operands args with
    | [.text cs], _ => some (.dgrpText (cs.map Char.toNat))
    | _, some [c0, c1, c2, c3] => some (.dgrp c0 c1 c2 c3)
    | _, _ => none
  else if mnemonic = ['I', 'D', 'X', 'O', 'F'] then
    match operands args with
    | some [c] => some (.idxof c)
    | _ => none
  else if plain then
    match operands args with
    | some [n] =>
      if mnemonic = ['E', 'N', 'C', '1'] then some (.enc1 n)
      else if mnemonic = ['D', 'S', 'T', 'A', 'R', 'T'] then some (.dstart n)
      else if mnemonic = ['S', 'Y', 'M', 'A', 'T'] then some (.symat n)
      else none
    | some [n, m] => if mnemonic = ['E', 'N', 'C', '2'] then some (.enc2 n m) else none
    | some [n, m, k] => if mnemonic = ['E', 'N', 'C', '3'] then some (.enc3 n m k) else none
    | _ => none
  else none

/-- A line of text: none where it is not of the syntax; `some none` where it holds no transaction, which a blank line
and a line with a comment only do (DESIGN CHOICE, safe: log entry 14). -/
def parseLine (line : List Char) : Option (Option AsmLine) :=
  match scanLine line with
  | none => none
  | some [] => some none
  | some (.word m :: args) => (lineOf m args).map some
  | some (.quoted _ :: _) => none
  | some (.text _ :: _) => none
  | some (.comma :: _) => none

/-- The request words of a line of text. -/
def assembleText (line : List Char) : Option (List Request) :=
  match parseLine line with
  | none => none
  | some none => some []
  | some (some l) => assemble l

end Sys2Proof.Machine
end

