-- ==== Sys2Proof/Safety.lean ====
section
/-! DEFINITION. What counts as a good state and a safe run, in the terms the claims use. -/

namespace Sys2Proof

/-- The operations that "read no register that they write and write none" (R49). -/
def Instr.isStateless : Instr → Bool
  | .enc0 => true
  | .enc1 _ => true
  | .enc2 _ _ => true
  | .enc3 _ _ _ => true
  | .dstart _ => false
  | .dgrp _ _ _ _ => false
  | .symat _ => true
  | .idxof _ => true
  | .dstat => true
  | .reserved9 => true
  | .reservedA => true
  | .reservedB => true
  | .reservedC => true
  | .reservedD => true
  | .reservedE => true
  | .reservedF => true

namespace Machine

/-- The invariants I1 to I8 of R30. -/
structure Regs.Inv (r : Regs) : Prop where
  settled : r.decState = .expectGroup ∨ r.decState = .rejected ∨ r.decState = .done
  posAligned : r.decPos.toNat % 4 = 0
  errIffRejected : r.decErr = .none ↔ r.decState ≠ .rejected
  goodLength : r.decErr ≠ .malformedLength → r.decLen.toNat % 4 = 0 ∧ r.decPos ≤ r.decLen
  badLength : r.decErr = .malformedLength → r.decLen.toNat % 4 ≠ 0 ∧ r.decPos = 0#32
  groupExpected : r.decState = .expectGroup → r.decPos < r.decLen
  allConsumed : r.decState = .done → r.decPos = r.decLen
  noStaleDetail : r.decErr ≠ .invalidCharacter → r.decErrIndex = 0#32 ∧ r.decErrChar = 0#8
  indexConsumed : r.decErr = .invalidCharacter → r.decErrIndex < r.decPos

/-- The recorded character is one that no position may hold (R29, R142). -/
def Regs.CharOffends (r : Regs) : Prop := r.decErr = .invalidCharacter → isOffending r.decErrChar = true

/-- The registers of a state satisfy R30. -/
def State.Inv (s : State) : Prop := s.regs.Inv

/-- A run of `k` steps stops at no fault and no refusal (R147). -/
def SafeRun (k : Nat) (s : State) : Prop := ∃ s', Sys2Proof.core.run k s = .next s'

end Machine

end Sys2Proof
end

