-- ==== Sys2Proof/Certificates/Slice0/Obligations.lean ====
section
/-! DEFINITION. The statements for the provers, from the numbered rules of the spec. Registers are written
`⟨DEC_STATE, DEC_LEN, DEC_POS, DEC_ERR, DEC_ERR_INDEX, DEC_ERR_CHAR⟩` and a response
`⟨status, done, count, err_index, err_char, data⟩`. A conclusion `exec i s = .next { s with … }` says that the
operation completes, what it does, and that it leaves everything else as it was. -/

open Sys2Proof Sys2Proof.Machine

/-! ### Reset, the port, and a step -/

/-- R34: the reset value of every register; it is the state that a DSTART of length 0 leaves. -/
def Obligations.ResetIsTheStateOfTheEmptyMessage : Prop :=
  State.reset.regs = ⟨.done, 0#32, 0#32, .none, 0#32, 0#8⟩ ∧
  DecState.code .done = 5#3 ∧ DecErr.code .none = 0#2 ∧
  isFinal State.reset.regs = true ∧ accepting State.reset.regs = false ∧
  ∀ s : State, ∃ t, exec (.dstart 0#32) s = .next t ∧ t.regs = State.reset.regs

/-- R170, on the model's port (log entry 1): reset takes one step, gives every register its reset value, returns no
response word, and leaves what the host does afterwards to come. -/
def Obligations.ResetInputRestoresTheResetRegisters : Prop :=
  ∀ (s : State) (rest : List HostInput), s.pending = .reset :: rest →
    step s = .next { regs := ⟨.done, 0#32, 0#32, .none, 0#32, 0#8⟩, pending := rest, response := none }

/-- R171: after reset a DGRP is answered with `Protocol`, whatever message was in progress, and no encoder or lookup
result depends on whether the block was reset. -/
def Obligations.ResetAbandonsTheMessage : Prop :=
  (∀ (c0 c1 c2 c3 : CharCode) (s : State),
    exec (.dgrp c0 c1 c2 c3) (resetInput s) =
      .next { resetInput s with response := some ⟨.protocol, true, 0#3, 0#32, 0#8, 0#32⟩ }) ∧
  ∀ (i : Instr) (s t t' : State), i.isStateless = true → i ≠ .dstat →
    exec i s = .next t → exec i (resetInput s) = .next t' → t'.response = t.response

/-- A step runs the decoded request (R16, R49; the list of the host's inputs is the model's, log entry 1): it takes the
request word off the list and is `exec` of the decoded operation; with nothing presented the state is held (R156). -/
def Obligations.StepRunsTheDecodedRequest : Prop :=
  (∀ (s : State) (w : Request) (rest : List HostInput), s.pending = .request w :: rest →
    step s = exec (decode w) { s with pending := rest }) ∧
  (∀ s : State, s.pending = [] → step s = .next s) ∧
  ∀ (s : State) (n w : Nat), w < 2 ^ 36 → 36 ≤ n →
    step (s.withFetchWord n w) = exec (decode (BitVec.ofNat 36 w)) s

/-- R147: every request word has a response in every register state. -/
def Obligations.EveryRequestWordIsAnswered : Prop :=
  ∀ (w : Request) (s : State), ∃ (r : Regs) (rsp : Response),
    exec (decode w) s = .next { regs := r, pending := s.pending, response := some rsp }

/-- R147, R180: no run of any length from any state stops at a fault or a refusal. -/
def Obligations.EveryRunIsSafe : Prop := ∀ (k : Nat) (s : State), SafeRun k s

/-- R180, on the model's port (log entry 1): every input presented is taken, one a step, and every request word is
answered by exactly one response, in the order presented; a reset is answered by none (R170). -/
def Obligations.EveryPresentedInputIsTaken : Prop :=
  ∀ s : State, ∃ t, Sys2Proof.core.run s.pending.length s = .next t ∧ t.pending = [] ∧
    (fullTranscript s).map PortEvent.input = s.pending

/-! ### Encoding -/

/-- Sample words, from R71's syntax table: one for every operation and two reserved codes. -/
def Obligations.SampleRequestWordsDecode : Prop :=
  decode 0x000000000#36 = .enc0 ∧
  decode 0x1004D0000#36 = .enc1 77#8 ∧
  decode 0x2004D6100#36 = .enc2 77#8 97#8 ∧
  decode 0x3004D616E#36 = .enc3 77#8 97#8 110#8 ∧
  decode 0x400000008#36 = .dstart 8#32 ∧
  decode 0x554574675#36 = .dgrp 0x54#8 0x57#8 0x46#8 0x75#8 ∧
  decode 0x600000013#36 = .symat 19#6 ∧
  decode 0x700000075#36 = .idxof 0x75#8 ∧
  decode 0x800000000#36 = .dstat ∧
  decode 0x900000000#36 = .reserved9 ∧
  decode 0xFFFFFFFFF#36 = .reservedF

/-- R68: `opc` alone selects the operation, by mask 0xF00000000 and match `opc << 32`, as the operation map lists it. -/
def Obligations.OperationCodeAloneSelects : Prop :=
  (∀ w : Request, w &&& 0xF00000000#36 = (opcOf (decode w)).zeroExtend 36 <<< 32) ∧
  (∀ (opc : BitVec 4) (p : Payload), opcOf (decode (mkRequest opc p)) = opc) ∧
  ∀ p : Payload,
    decode (mkRequest 0x0#4 p) = .enc0 ∧
    (∃ b0, decode (mkRequest 0x1#4 p) = .enc1 b0) ∧
    (∃ b0 b1, decode (mkRequest 0x2#4 p) = .enc2 b0 b1) ∧
    (∃ b0 b1 b2, decode (mkRequest 0x3#4 p) = .enc3 b0 b1 b2) ∧
    (∃ len, decode (mkRequest 0x4#4 p) = .dstart len) ∧
    (∃ c0 c1 c2 c3, decode (mkRequest 0x5#4 p) = .dgrp c0 c1 c2 c3) ∧
    (∃ i, decode (mkRequest 0x6#4 p) = .symat i) ∧
    (∃ c, decode (mkRequest 0x7#4 p) = .idxof c) ∧
    decode (mkRequest 0x8#4 p) = .dstat ∧
    decode (mkRequest 0x9#4 p) = .reserved9 ∧ decode (mkRequest 0xA#4 p) = .reservedA ∧
    decode (mkRequest 0xB#4 p) = .reservedB ∧ decode (mkRequest 0xC#4 p) = .reservedC ∧
    decode (mkRequest 0xD#4 p) = .reservedD ∧ decode (mkRequest 0xE#4 p) = .reservedE ∧
    decode (mkRequest 0xF#4 p) = .reservedF

/-- R70: an ignored payload bit has no effect (words that agree elsewhere decode to one operation), and the assembler
writes 0 into it. -/
def Obligations.IgnoredPayloadBitsHaveNoEffect : Prop :=
  (∀ (opc : BitVec 4) (p q : Payload), p &&& usedPayloadBits opc = q &&& usedPayloadBits opc →
    decode (mkRequest opc p) = decode (mkRequest opc q)) ∧
  ∀ w : Request, encode (decode w) = mkRequest (reqOpc w) (reqPayload w &&& usedPayloadBits (reqOpc w))

/-- Decode and encode agree for every operation and every value of its operands, on the word and on its number. -/
def Obligations.DecodeOfEncodeIsTheOperation : Prop :=
  ∀ i : Instr, i.wf = true → decode (encode i) = i ∧ decodeTableWord 36 (encode i).toNat = some i

/-- R62, R140: the fields of the response word, and its reading back; a word whose status code is reserved is no
response. -/
def Obligations.ResponseWordCarriesItsFields : Prop :=
  (∀ r : Response,
    r.word.extractLsb' 76 4 = r.status.code ∧ r.word.extractLsb' 75 1 = BitVec.ofBool r.done ∧
    r.word.extractLsb' 72 3 = r.count ∧ r.word.extractLsb' 40 32 = r.errIndex ∧
    r.word.extractLsb' 32 8 = r.errChar ∧ r.word.extractLsb' 0 32 = r.data ∧
    Response.ofWord r.word = some r) ∧
  (∀ (w : ResponseWord) (r : Response), Response.ofWord w = some r → r.word = w) ∧
  ∀ w : ResponseWord, 6 ≤ (w.extractLsb' 76 4).toNat → Response.ofWord w = none

/-- R71: the request words of the assembler's lines. -/
def Obligations.AssemblerLinesMakeTheirWords : Prop :=
  assemble .enc0 = some [0x000000000#36] ∧ assemble .dstat = some [0x800000000#36] ∧
  (∀ b0 b1 b2 : Byte,
    assemble (.enc1 b0.toNat) = some [mkRequest 0x1#4 (0x00#8 ++ b0 ++ 0x00#8 ++ 0x00#8)] ∧
    assemble (.enc2 b0.toNat b1.toNat) = some [mkRequest 0x2#4 (0x00#8 ++ b0 ++ b1 ++ 0x00#8)] ∧
    assemble (.enc3 b0.toNat b1.toNat b2.toNat) = some [mkRequest 0x3#4 (0x00#8 ++ b0 ++ b1 ++ b2)]) ∧
  (∀ len : Len, assemble (.dstart len.toNat) = some [mkRequest 0x4#4 len]) ∧
  (∀ c0 c1 c2 c3 : CharCode,
    assemble (.dgrp c0.toNat c1.toNat c2.toNat c3.toNat) = some [mkRequest 0x5#4 (c0 ++ c1 ++ c2 ++ c3)] ∧
    assemble (.dgrpText [c0.toNat, c1.toNat, c2.toNat, c3.toNat]) = some [mkRequest 0x5#4 (c0 ++ c1 ++ c2 ++ c3)]) ∧
  (∀ i : Index, assemble (.symat i.toNat) = some [mkRequest 0x6#4 (0x000000#24 ++ 0b00#2 ++ i)]) ∧
  ∀ c : CharCode, assemble (.idxof c.toNat) = some [mkRequest 0x7#4 (0x000000#24 ++ c)]

/-! ### The ROMs and the operations that read them -/

/-- R81: the contents of `symbol_rom` in closed form, and the code of the padding character. -/
def Obligations.SymbolRomHoldsTheAlphabet : Prop :=
  (∀ i : Index,
    (i.toNat ≤ 25 → (memReadSym i).toNat = 0x41 + i.toNat) ∧
    (26 ≤ i.toNat → i.toNat ≤ 51 → (memReadSym i).toNat = 0x61 + (i.toNat - 26)) ∧
    (52 ≤ i.toNat → i.toNat ≤ 61 → (memReadSym i).toNat = 0x30 + (i.toNat - 52)) ∧
    (i.toNat = 62 → (memReadSym i).toNat = 0x2B) ∧
    (i.toNat = 63 → (memReadSym i).toNat = 0x2F)) ∧
  Config.pad = 0x3D#8

/-- R82, R83: the contents of the two columns of `inverse_symbol_rom` in closed form. -/
def Obligations.InverseRomHoldsIndexAndValidity : Prop :=
  (∀ c : CharCode, (memReadInv c).toNat =
    if 0x41 ≤ c.toNat ∧ c.toNat ≤ 0x5A then c.toNat - 0x41
    else if 0x61 ≤ c.toNat ∧ c.toNat ≤ 0x7A then c.toNat - 0x61 + 26
    else if 0x30 ≤ c.toNat ∧ c.toNat ≤ 0x39 then c.toNat - 0x30 + 52
    else if c.toNat = 0x2B then 62
    else if c.toNat = 0x2F then 63
    else 0) ∧
  (∀ c : CharCode, memReadInvv c = 1#1 ↔
    (0x41 ≤ c.toNat ∧ c.toNat ≤ 0x5A) ∨ (0x61 ≤ c.toNat ∧ c.toNat ≤ 0x7A) ∨
    (0x30 ≤ c.toNat ∧ c.toNat ≤ 0x39) ∨ c.toNat = 0x2B ∨ c.toNat = 0x2F) ∧
  ((List.range 256).filter fun n => memReadInvv (BitVec.ofNat 8 n) == 1#1).length = 64 ∧
  (∀ i : Index, memReadInv ((memReadSym i).zeroExtend 8) = i) ∧
  ∀ c : CharCode, memReadInvv c = 1#1 → (memReadSym (memReadInv c)).zeroExtend 8 = c

/-- R86: the two tables are inverse to each other, and `=` is in neither. -/
def Obligations.TablesAreInverse : Prop :=
  (∀ i : Index, memReadInvv ((memReadSym i).zeroExtend 8) = 1#1 ∧ memReadInv ((memReadSym i).zeroExtend 8) = i) ∧
  (∀ c : CharCode, memReadInvv c = 1#1 → (memReadSym (memReadInv c)).zeroExtend 8 = c) ∧
  (∀ i j : Index, memReadSym i = memReadSym j → i = j) ∧
  ∀ i : Index, memReadSym i ≠ 0x3D#7 ∧ 0x2B ≤ (memReadSym i).toNat ∧ (memReadSym i).toNat ≤ 0x7A

/-- R84: SYMAT. -/
def Obligations.SymatReturnsTheSymbol : Prop :=
  (∀ p : Payload, decode (mkRequest 0x6#4 p) = .symat (p.extractLsb' 0 6)) ∧
  (∀ (i : Index) (s : State), exec (.symat i) s =
    .next { s with response := some ⟨.ok, false, 1#3, 0#32, 0#8, (memReadSym i).zeroExtend 32⟩ }) ∧
  memReadSym 0#6 = 0x41#7 ∧ memReadSym 19#6 = 0x54#7 ∧ memReadSym 63#6 = 0x2F#7 ∧ ∀ i : Index, (memReadSym i).zeroExtend 8 ≠ 0x3D#8

/-- R85: IDXOF; `Invalid` is a result (`count = 0`), not an error. -/
def Obligations.IdxofReturnsIndexAndValidity : Prop :=
  (∀ p : Payload, decode (mkRequest 0x7#4 p) = .idxof (p.extractLsb' 0 8)) ∧
  (∀ (c : CharCode) (s : State), exec (.idxof c) s =
    .next { s with
      response := some ⟨.ok, false, (memReadInvv c).zeroExtend 3, 0#32, 0#8, (memReadInv c).zeroExtend 32⟩ }) ∧
  memReadInvv 0x41#8 = 1#1 ∧ memReadInv 0x41#8 = 0#6 ∧ memReadInvv 0x2F#8 = 1#1 ∧ memReadInv 0x2F#8 = 63#6 ∧
  memReadInvv 0x75#8 = 1#1 ∧ memReadInv 0x75#8 = 46#6 ∧
  ∀ c ∈ [0x3D#8, 0x00#8, 0x20#8, 0x2D#8, 0x5F#8, 0x80#8, 0xFF#8], memReadInvv c = 0#1 ∧ memReadInv c = 0#6

/-! ### The encoder -/

/-- R92: ENC0. -/
def Obligations.EmptyGroupYieldsNoCharacter : Prop :=
  (∀ p : Payload, decode (mkRequest 0x0#4 p) = .enc0) ∧
  ∀ s : State, exec .enc0 s = .next { s with response := some ⟨.ok, false, 0#3, 0#32, 0#8, 0#32⟩ }

/-- R93: ENC1. -/
def Obligations.OneByteTailYieldsTwoSymbols : Prop :=
  (∀ p : Payload, decode (mkRequest 0x1#4 p) = .enc1 (p.extractLsb' 16 8)) ∧
  (∀ (b0 : Byte) (s : State), exec (.enc1 b0) s =
    .next { s with response := some ⟨.ok, false, 4#3, 0#32, 0#8,
      (memReadSym (b0.extractLsb' 2 6)).zeroExtend 8 ++
      (memReadSym (b0.extractLsb' 0 2 ++ 0b0000#4)).zeroExtend 8 ++ 0x3D#8 ++ 0x3D#8⟩ }) ∧
  (∀ s : State, exec (.enc1 0xFF#8) s =
    .next { s with response := some ⟨.ok, false, 4#3, 0#32, 0#8, 0x2F773D3D#32⟩ }) ∧
  ∀ b0 : Byte, (memReadSym (b0.extractLsb' 0 2 ++ 0b0000#4)).zeroExtend 8 ∈ [0x41#8, 0x51#8, 0x67#8, 0x77#8]

/-- R94: ENC2. -/
def Obligations.TwoByteTailYieldsThreeSymbols : Prop :=
  (∀ p : Payload, decode (mkRequest 0x2#4 p) = .enc2 (p.extractLsb' 16 8) (p.extractLsb' 8 8)) ∧
  (∀ (b0 b1 : Byte) (s : State), exec (.enc2 b0 b1) s =
    .next { s with response := some ⟨.ok, false, 4#3, 0#32, 0#8,
      (memReadSym (b0.extractLsb' 2 6)).zeroExtend 8 ++
      (memReadSym (b0.extractLsb' 0 2 ++ b1.extractLsb' 4 4)).zeroExtend 8 ++
      (memReadSym (b1.extractLsb' 0 4 ++ 0b00#2)).zeroExtend 8 ++ 0x3D#8⟩ }) ∧
  ∀ s : State, exec (.enc2 0xFF#8 0xFF#8) s =
    .next { s with response := some ⟨.ok, false, 4#3, 0#32, 0#8, 0x2F2F383D#32⟩ }

/-- R95: ENC3. -/
def Obligations.FullGroupYieldsFourSymbols : Prop :=
  (∀ p : Payload, decode (mkRequest 0x3#4 p) = .enc3 (p.extractLsb' 16 8) (p.extractLsb' 8 8) (p.extractLsb' 0 8)) ∧
  (∀ (b0 b1 b2 : Byte) (s : State), exec (.enc3 b0 b1 b2) s =
    .next { s with response := some ⟨.ok, false, 4#3, 0#32, 0#8,
      (memReadSym (b0.extractLsb' 2 6)).zeroExtend 8 ++
      (memReadSym (b0.extractLsb' 0 2 ++ b1.extractLsb' 4 4)).zeroExtend 8 ++
      (memReadSym (b1.extractLsb' 0 4 ++ b2.extractLsb' 6 2)).zeroExtend 8 ++
      (memReadSym (b2.extractLsb' 0 6)).zeroExtend 8⟩ }) ∧
  ∀ s : State, exec (.enc3 77#8 97#8 110#8) s =
    .next { s with response := some ⟨.ok, false, 4#3, 0#32, 0#8, 0x54574675#32⟩ }

/-- R65: for the four encoder codes `opc[1:0] = n` is the number of valid bytes, and the invalid ones are forced to
zero before the group is split. -/
def Obligations.EncoderForcesInvalidBytesToZero : Prop :=
  ∀ (n : Fin 4) (p : Payload) (s : State),
    let b0 : Byte := if 1 ≤ n then p.extractLsb' 16 8 else 0#8
    let b1 : Byte := if 2 ≤ n then p.extractLsb' 8 8 else 0#8
    let b2 : Byte := if n = 3 then p.extractLsb' 0 8 else 0#8
    exec (decode (mkRequest (BitVec.ofNat 4 n.val) p)) s =
      .next { s with
        response := some ⟨.ok, false, (encGroup n (b0 ++ b1 ++ b2)).1, 0#32, 0#8, (encGroup n (b0 ++ b1 ++ b2)).2⟩ }

/-- R96: every character an encoder operation returns has bit 7 equal to 0. -/
def Obligations.EncoderCharactersAreSevenBit : Prop :=
  ∀ (i : Instr) (s t : State) (rsp : Response), (opcOf i).toNat ≤ 3 → exec i s = .next t → t.response = some rsp →
    ∀ c ∈ charLanes rsp.data, c.getLsbD 7 = false

/-- R101: the length, padding, closure and canonical-tail laws of `encode`. -/
def Obligations.EncodedMessagesObeyTheLaws : Prop :=
  ∀ b : List Byte,
    (encodeMessage b).length = 4 * ((b.length + 2) / 3) ∧
    ∃ body : List CharCode,
      encodeMessage b = body ++ List.replicate ((3 - b.length % 3) % 3) 0x3D#8 ∧
      (∀ c ∈ body, memReadInvv c = 1#1 ∧ c ≠ 0x3D#8) ∧
      (b.length % 3 = 1 → ∃ c, body.getLast? = some c ∧ (memReadInv c).extractLsb' 0 4 = 0#4) ∧
      (b.length % 3 = 2 → ∃ c, body.getLast? = some c ∧ (memReadInv c).extractLsb' 0 2 = 0#2)

/-- R72, R100: from every state, the valid characters of the responses to `ENCODE b` are `encode(b)`. -/
def Obligations.EncodeExpansionComputesEncode : Prop :=
  ∀ (b : List Byte) (s : State),
    encodedText (fullTranscript (presentAll s ((encodeOps b).map encode))) = encodeMessage b

/-! ### The decoder -/

/-- R31: the two predicates, and the `done` bit of a decoder response: `final` after the transaction. -/
def Obligations.DoneBitIsFinalAfterTheTransaction : Prop :=
  (∀ r : Regs, accepting r = true ↔
    r.decState = .expectGroup ∨ (r.decState = .rejected ∧ r.decErr ≠ .malformedLength ∧ r.decPos < r.decLen)) ∧
  (∀ r : Regs, isFinal r = true ↔
    r.decState = .done ∨
      (r.decState = .rejected ∧ (r.decErr = .malformedLength ∨ r.decErr = .invalidCharacter ∨ r.decPos = r.decLen))) ∧
  (∀ r : Regs, r.decState = .rejected → r.decErr = .invalidCharacter → r.decPos < r.decLen →
    accepting r = true ∧ isFinal r = true) ∧
  ∀ (i : Instr) (s t : State),
    ((∃ len, i = .dstart len) ∨ (∃ c0 c1 c2 c3, i = .dgrp c0 c1 c2 c3) ∨ i = .dstat) → exec i s = .next t →
    ∃ rsp, t.response = some rsp ∧ rsp.done = isFinal t.regs

/-- R116, R141: DSTART, in every state. -/
def Obligations.DstartOpensAMessage : Prop :=
  (∀ p : Payload, decode (mkRequest 0x4#4 p) = .dstart p) ∧
  ∀ (len : Len) (s : State),
    (len.toNat % 4 ≠ 0 → exec (.dstart len) s =
      .next { s with
        regs := ⟨.rejected, len, 0#32, .malformedLength, 0#32, 0#8⟩
        response := some ⟨.malformedLength, true, 0#3, 0#32, 0#8, 0#32⟩ }) ∧
    (len = 0#32 → exec (.dstart len) s =
      .next { s with
        regs := ⟨.done, 0#32, 0#32, .none, 0#32, 0#8⟩
        response := some ⟨.ok, true, 0#3, 0#32, 0#8, 0#32⟩ }) ∧
    (len.toNat % 4 = 0 → len ≠ 0#32 → exec (.dstart len) s =
      .next { s with
        regs := ⟨.expectGroup, len, 0#32, .none, 0#32, 0#8⟩
        response := some ⟨.ok, false, 0#3, 0#32, 0#8, 0#32⟩ })

/-- R145: a DGRP that no message expects is answered with `Protocol`; its characters are not examined and no register is
written. -/
def Obligations.UnexpectedGroupIsAProtocolError : Prop :=
  (∀ p : Payload, decode (mkRequest 0x5#4 p) =
    .dgrp (p.extractLsb' 24 8) (p.extractLsb' 16 8) (p.extractLsb' 8 8) (p.extractLsb' 0 8)) ∧
  (∀ (c0 c1 c2 c3 : CharCode) (s : State), accepting s.regs = false →
    exec (.dgrp c0 c1 c2 c3) s = .next { s with
      response := some ⟨.protocol, isFinal s.regs, 0#3, s.regs.decErrIndex, s.regs.decErrChar, 0#32⟩ }) ∧
  ∀ r : Regs,
    (r.decState = .done ∨ (r.decState = .rejected ∧ (r.decErr = .malformedLength ∨ r.decPos = r.decLen))) →
      accepting r = false

/-- R118, R142: in `ExpectGroup`, the lowest lane holding a character that is neither `=` nor in the alphabet is
reported, whatever `=` the group holds. -/
def Obligations.InvalidCharacterIsReportedAtItsIndex : Prop :=
  ∀ (c0 c1 c2 c3 : CharCode) (j : Fin 4) (s : State), s.regs.decState = .expectGroup →
    (![c0, c1, c2, c3] j ≠ 0x3D#8 ∧ memReadInvv (![c0, c1, c2, c3] j) = 0#1) →
    (∀ k < j, ![c0, c1, c2, c3] k = 0x3D#8 ∨ memReadInvv (![c0, c1, c2, c3] k) = 1#1) →
    exec (.dgrp c0 c1 c2 c3) s = .next { s with
      regs := ⟨.rejected, s.regs.decLen, s.regs.decPos + 4#32, .invalidCharacter,
        s.regs.decPos + BitVec.ofNat 32 j.val, ![c0, c1, c2, c3] j⟩
      response := some ⟨.invalidCharacter, true, 0#3,
        s.regs.decPos + BitVec.ofNat 32 j.val, ![c0, c1, c2, c3] j, 0#32⟩ }

/-- R118, R143: in `ExpectGroup`, a group of alphabet characters and `=` whose pattern of `=` may not stand there is
`InvalidPadding`; no byte is emitted, the index and character registers stay as they are, and the response is final only
where the group was the last one. -/
def Obligations.MisplacedPaddingIsReported : Prop :=
  ∀ (c0 c1 c2 c3 : CharCode) (s : State), s.regs.decState = .expectGroup →
    (∀ c ∈ [c0, c1, c2, c3], c = 0x3D#8 ∨ memReadInvv c = 1#1) →
    ([c0, c1, c2, c3].map (fun c => c == 0x3D#8) ∉
      (if s.regs.decPos + 4#32 = s.regs.decLen
        then [[false, false, false, false], [false, false, false, true], [false, false, true, true]]
        else [[false, false, false, false]])) →
    exec (.dgrp c0 c1 c2 c3) s = .next { s with
      regs := { s.regs with decState := .rejected, decErr := .invalidPadding, decPos := s.regs.decPos + 4#32 }
      response := some ⟨.invalidPadding, s.regs.decPos + 4#32 == s.regs.decLen, 0#3,
        s.regs.decErrIndex, s.regs.decErrChar, 0#32⟩ }

/-- R114, R118, R120: in `ExpectGroup`, a good group gives the leading bytes of the 24-bit value made of its four 6-bit
indices, a padding position counting as 0: three bytes without `=`, two with one `=`, one with two, the latter two only
in the last group. The last good group ends in `Done`. -/
def Obligations.GoodGroupIsDecoded : Prop :=
  ∀ (c0 c1 c2 c3 : CharCode) (s : State), s.regs.decState = .expectGroup →
    memReadInvv c0 = 1#1 → memReadInvv c1 = 1#1 →
    let last : Bool := s.regs.decPos + 4#32 == s.regs.decLen
    let after : Regs :=
      { s.regs with decState := if last then .done else .expectGroup, decPos := s.regs.decPos + 4#32 }
    let answer (count : BitVec 3) (data : Payload) : State := { s with
      regs := after
      response := some ⟨s.regs.decErr.status, last, count, s.regs.decErrIndex, s.regs.decErrChar, data⟩ }
    (memReadInvv c2 = 1#1 → memReadInvv c3 = 1#1 → exec (.dgrp c0 c1 c2 c3) s =
      .next (answer 3#3
        (0#8 ++ (memReadInv c0 ++ memReadInv c1 ++ memReadInv c2 ++ memReadInv c3)))) ∧
    (memReadInvv c2 = 1#1 → c3 = 0x3D#8 → last = true → exec (.dgrp c0 c1 c2 c3) s =
      .next (answer 2#3
        (0#8 ++ (memReadInv c0 ++ memReadInv c1 ++ memReadInv c2 ++ 0#6 : BitVec 24).extractLsb' 8 16 ++ 0#8))) ∧
    (c2 = 0x3D#8 → c3 = 0x3D#8 → last = true → exec (.dgrp c0 c1 c2 c3) s =
      .next (answer 1#3
        (0#8 ++ (memReadInv c0 ++ memReadInv c1 ++ 0#6 ++ 0#6 : BitVec 24).extractLsb' 16 8 ++ 0#16)))

/-- R119: in `Rejected` with groups left, the group is absorbed without a byte. A recorded padding error is superseded by
the lowest offending lane; otherwise nothing changes but the position. -/
def Obligations.RejectedMessageAbsorbsItsGroups : Prop :=
  ∀ (c0 c1 c2 c3 : CharCode) (s : State), s.regs.decState = .rejected → s.regs.decPos < s.regs.decLen →
    (∀ j : Fin 4, s.regs.decErr = .invalidPadding →
      (![c0, c1, c2, c3] j ≠ 0x3D#8 ∧ memReadInvv (![c0, c1, c2, c3] j) = 0#1) →
      (∀ k < j, ![c0, c1, c2, c3] k = 0x3D#8 ∨ memReadInvv (![c0, c1, c2, c3] k) = 1#1) →
      exec (.dgrp c0 c1 c2 c3) s = .next { s with
        regs := ⟨.rejected, s.regs.decLen, s.regs.decPos + 4#32, .invalidCharacter,
          s.regs.decPos + BitVec.ofNat 32 j.val, ![c0, c1, c2, c3] j⟩
        response := some ⟨.invalidCharacter, true, 0#3,
          s.regs.decPos + BitVec.ofNat 32 j.val, ![c0, c1, c2, c3] j, 0#32⟩ }) ∧
    (s.regs.decErr = .invalidPadding →
      (∀ c ∈ [c0, c1, c2, c3], c = 0x3D#8 ∨ memReadInvv c = 1#1) →
      exec (.dgrp c0 c1 c2 c3) s = .next { s with
        regs := { s.regs with decPos := s.regs.decPos + 4#32 }
        response := some ⟨.invalidPadding, s.regs.decPos + 4#32 == s.regs.decLen, 0#3,
          s.regs.decErrIndex, s.regs.decErrChar, 0#32⟩ }) ∧
    (s.regs.decErr = .invalidCharacter →
      exec (.dgrp c0 c1 c2 c3) s = .next { s with
        regs := { s.regs with decPos := s.regs.decPos + 4#32 }
        response := some ⟨.invalidCharacter, true, 0#3, s.regs.decErrIndex, s.regs.decErrChar, 0#32⟩ })

/-- R121: DSTAT reads the status and writes nothing; from its response the state is recovered. -/
def Obligations.DstatReportsTheDecoder : Prop :=
  (∀ p : Payload, decode (mkRequest 0x8#4 p) = .dstat) ∧
  (∀ s : State, exec .dstat s = .next { s with
    response := some ⟨s.regs.decErr.status, isFinal s.regs, 0#3,
      s.regs.decErrIndex, s.regs.decErrChar, s.regs.decPos⟩ }) ∧
  ∀ (s t : State) (rsp : Response), s.Inv → exec .dstat s = .next t → t.response = some rsp →
    (rsp.status ≠ .ok ↔ s.regs.decState = .rejected) ∧
    (rsp.status = .ok ∧ rsp.done = true ↔ s.regs.decState = .done) ∧
    (rsp.status = .ok ∧ rsp.done = false ↔ s.regs.decState = .expectGroup)

/-- R69, R144: the seven reserved codes, with any payload, are answered with `IllegalRequest` and change no register. -/
def Obligations.ReservedCodesAreIllegalRequests : Prop :=
  (∀ i ∈ [Instr.reserved9, .reservedA, .reservedB, .reservedC, .reservedD, .reservedE, .reservedF], ∀ s : State,
    exec i s = .next { s with response := some ⟨.illegalRequest, false, 0#3, 0#32, 0#8, 0#32⟩ }) ∧
  ∀ (opc : BitVec 4) (p : Payload) (s : State), 9 ≤ opc.toNat →
    exec (decode (mkRequest opc p)) s =
      .next { s with response := some ⟨.illegalRequest, false, 0#3, 0#32, 0#8, 0#32⟩ }

/-- R23, R49: ENC0 to ENC3, SYMAT, IDXOF, DSTAT and the reserved codes complete and write no register; the frame of each
of them is the whole state but the response. -/
def Obligations.StatelessOperationsWriteNoRegister : Prop :=
  ∀ (i : Instr) (s : State), i.isStateless = true → ∃ rsp, exec i s = .next { s with response := some rsp }

/-- R26, R25: the position is set to 0 by DSTART and reset, moved by 4 by an accepted DGRP, and by nothing else; the
declared length is written by DSTART and reset only. -/
def Obligations.PositionAndLengthAreWrittenOnlyByTheDecoder : Prop :=
  (∀ (i : Instr) (s t : State), exec i s = .next t →
    t.pending = s.pending ∧
    (∀ len, i = .dstart len → t.regs.decPos = 0#32 ∧ t.regs.decLen = len) ∧
    (∀ c0 c1 c2 c3, i = .dgrp c0 c1 c2 c3 → t.regs.decLen = s.regs.decLen ∧
      (accepting s.regs = true → t.regs.decPos = s.regs.decPos + 4#32) ∧
      (accepting s.regs = false → t.regs = s.regs)) ∧
    (i.isStateless = true → t.regs.decPos = s.regs.decPos ∧ t.regs.decLen = s.regs.decLen)) ∧
  ∀ s : State, (resetInput s).regs.decPos = 0#32 ∧ (resetInput s).regs.decLen = 0#32

/-- R64: registers and response after an operation depend on the registers before it and on nothing else; of the
operations that are neither DSTART, DGRP nor DSTAT the response does not even depend on those. -/
def Obligations.ResponseIsAFunctionOfRequestAndRegisters : Prop :=
  (∀ (i : Instr) (s1 s2 t1 t2 : State), s1.regs = s2.regs → exec i s1 = .next t1 → exec i s2 = .next t2 →
    t1.regs = t2.regs ∧ t1.response = t2.response) ∧
  ∀ (i : Instr) (s1 s2 t1 t2 : State), i.isStateless = true → i ≠ .dstat →
    exec i s1 = .next t1 → exec i s2 = .next t2 → t1.response = t2.response

/-- R49: transactions that belong to no decode message can stand anywhere between those that do, without changing any
response to a DSTART or DGRP, and so without changing how the run is cut into messages. -/
def Obligations.UnrelatedTransactionsDoNotDisturbAMessage : Prop :=
  ∀ (s : State) (ws : List Request),
    decoderResponses (fullTranscript (presentAll s ws)) =
      decoderResponses (fullTranscript (presentAll s (ws.filter isMessageRequest))) ∧
    splitMessages (fullTranscript (presentAll s ws)) =
      splitMessages (fullTranscript (presentAll s (ws.filter isMessageRequest)))

/-! ### The decode messages of a run -/

/-- R117, R145: a DGRP presented where none is accepted does not change any message of the run: neither the one it
follows nor a later one, and not the groups of one that was open before the run. That a message's groups are told by
their status is the model's (DEDUCED, log entry 13); the hypothesis here is R31's `accepting`. -/
def Obligations.UnacceptedGroupChangesNoMessage : Prop :=
  ∀ (s s1 : State) (xs ys : List HostInput) (c0 c1 c2 c3 : CharCode),
    Sys2Proof.core.run xs.length { s with pending := xs } = .next s1 → accepting s1.regs = false →
    splitMessages (fullTranscript { s with pending := xs ++ .request (encode (.dgrp c0 c1 c2 c3)) :: ys }) =
      splitMessages (fullTranscript { s with pending := xs ++ ys })

/-- R122: a message goes up to the next DSTART or reset. What was presented before either is cut into messages as if
nothing followed, and what follows as if it were presented after reset. -/
def Obligations.MessagesEndAtDstartAndReset : Prop :=
  ∀ (s : State) (xs ys : List HostInput) (len : Len),
    let before := splitMessages (fullTranscript { s with pending := xs })
    splitMessages (fullTranscript { s with pending := xs ++ .reset :: ys }) =
      (before.1, before.2 ++ messages (fullTranscript { State.reset with pending := ys })) ∧
    splitMessages (fullTranscript { s with pending := xs ++ .request (encode (.dstart len)) :: ys }) =
      (before.1, before.2 ++
        messages (fullTranscript { State.reset with pending := .request (encode (.dstart len)) :: ys }))

/-- Of every message that any run opens. That it has no result while no response has `done = 1` is the model's choice
(DESIGN CHOICE, log entry 13): R122 speaks of the result only once a response has it. Once one has (R122, R73), the result
is what `status` says, with the bytes of all its groups, or with `err_index` and `err_char`, whichever of its final
responses is read, the first or the last; the model reads the first (DEDUCED, log entry 13). -/
def Obligations.MessageResultIsReadFromAnyFinalResponse : Prop :=
  ∀ (s : State) (m : DecodeMessage), m ∈ messages (fullTranscript s) →
    ((∀ r ∈ m.start :: m.groups, r.done = false) → messageResult m = none) ∧
    ∀ r ∈ m.start :: m.groups, r.done = true →
      (r.status = .ok ∧ messageResult m = some (.ok (m.groups.flatMap fun g =>
        [g.data.extractLsb' 16 8, g.data.extractLsb' 8 8, g.data.extractLsb' 0 8].take g.count.toNat))) ∨
      (r.status = .malformedLength ∧ messageResult m = some (.error .malformedLength)) ∨
      (r.status = .invalidCharacter ∧ messageResult m = some (.error (.invalidCharacter r.errIndex r.errChar))) ∨
      (r.status = .invalidPadding ∧ messageResult m = some (.error .invalidPadding))

/-! ### Invariants of the decoder registers -/

/-- R30 holds after reset. -/
def Obligations.InvariantsHoldAtReset : Prop := State.Inv State.reset

/-- R30: every step, from any state that satisfies I1 to I8, leads to one that does. -/
def Obligations.StepKeepsTheInvariants : Prop :=
  ∀ s t : State, s.Inv → step s = .next t → t.Inv

/-- R29, R142: a recorded character is one that is neither `=` nor in the alphabet; every step keeps that. -/
def Obligations.StepKeepsTheRecordedCharacterOffending : Prop :=
  ∀ s t : State, s.regs.CharOffends → step s = .next t → t.regs.CharOffends

/-- R27: the codes of `DEC_ERR`, and the only changes it makes: none to `MalformedLength` at DSTART, none to
`InvalidCharacter` or `InvalidPadding`, `InvalidPadding` to `InvalidCharacter`, and back to none only by DSTART or
reset. -/
def Obligations.RecordedErrorChangesOnlyUpward : Prop :=
  (DecErr.code .none = 0#2 ∧ DecErr.code .malformedLength = 1#2 ∧ DecErr.code .invalidCharacter = 2#2 ∧
    DecErr.code .invalidPadding = 3#2 ∧ ∀ e : DecErr, e.status.code = e.code.zeroExtend 4) ∧
  (∀ (i : Instr) (s t : State), s.Inv → exec i s = .next t →
    ((∃ len, i = .dstart len) ∧ (t.regs.decErr = .none ∨ t.regs.decErr = .malformedLength)) ∨
    ((¬∃ len, i = .dstart len) ∧
      (t.regs.decErr = s.regs.decErr ∨
        (s.regs.decErr = .none ∧ (t.regs.decErr = .invalidCharacter ∨ t.regs.decErr = .invalidPadding)) ∨
        (s.regs.decErr = .invalidPadding ∧ t.regs.decErr = .invalidCharacter)))) ∧
  (∀ s : State, s.Inv → (s.regs.decErr = .none ↔ s.regs.decState ≠ .rejected)) ∧
  ∀ s : State, (resetInput s).regs.decErr = .none

/-- R15: where a group is accepted, neither the advance of the position nor the index of a character wraps. -/
def Obligations.PositionNeverWraps : Prop :=
  ∀ r : Regs, r.Inv → accepting r = true →
    (r.decPos + 4#32).toNat = r.decPos.toNat + 4 ∧ r.decPos.toNat + 4 ≤ 2 ^ 32 - 4 ∧
    ∀ j : Fin 4, (r.decPos + BitVec.ofNat 32 j.val).toNat = r.decPos.toNat + j.val

/-- R31, R119: once the result is final no DGRP changes it: state, error, index and character stay, the result stays
final, and no further byte is emitted. -/
def Obligations.FinalResultIsNeverChanged : Prop :=
  ∀ (c0 c1 c2 c3 : CharCode) (s t : State), s.Inv → isFinal s.regs = true → exec (.dgrp c0 c1 c2 c3) s = .next t →
    t.regs.decState = s.regs.decState ∧ t.regs.decErr = s.regs.decErr ∧
    t.regs.decErrIndex = s.regs.decErrIndex ∧ t.regs.decErrChar = s.regs.decErrChar ∧
    isFinal t.regs = true ∧ ∃ rsp, t.response = some rsp ∧ rsp.count = 0#3 ∧ rsp.data = 0#32

/-- R115, R152: of the operations only DSTART leaves `Rejected` or `Done`, and from `ExpectGroup` every operation ends in
one of the three settled states: the transient ones are passed inside a transaction (R24). -/
def Obligations.OnlyDstartLeavesATerminalState : Prop :=
  (∀ (i : Instr) (s t : State), (s.regs.decState = .rejected ∨ s.regs.decState = .done) → exec i s = .next t →
    t.regs.decState = s.regs.decState ∨ ∃ len, i = .dstart len) ∧
  ∀ (i : Instr) (s t : State), s.regs.decState = .expectGroup → exec i s = .next t →
    t.regs.decState = .expectGroup ∨ t.regs.decState = .rejected ∨ t.regs.decState = .done

/-- R53, R127 and U5: what the inverse ROM holds at a code that is not valid, the padding character's included, has no
influence on decoding. -/
def Obligations.InvalidEntriesOfTheInverseRomAreNeverUsed : Prop :=
  ∀ rom rom' : CharCode → Index, (∀ c, memReadInvv c = 1#1 → rom c = rom' c) →
    ∀ (c0 c1 c2 c3 : CharCode) (last : Bool),
      decGroupVia rom c0 c1 c2 c3 last = decGroupVia rom' c0 c1 c2 c3 last

/-! ### Whole messages -/

/-- R148, R130: the order of the decode errors, and the rejection of every faulty string. -/
def Obligations.DecodeErrorsHaveTheirPriority : Prop :=
  ∀ t : List CharCode,
    (t.length % 4 ≠ 0 → decodeMessage t = .error .malformedLength) ∧
    (t.length % 4 = 0 → ∀ (i : Nat) (c : CharCode), t[i]? = some c → (c ≠ 0x3D#8 ∧ memReadInvv c = 0#1) →
      (∀ (k : Nat) (d : CharCode), k < i → t[k]? = some d → d = 0x3D#8 ∨ memReadInvv d = 1#1) →
      decodeMessage t = .error (.invalidCharacter (BitVec.ofNat 32 i) c)) ∧
    (t.length % 4 = 0 → (∀ c ∈ t, c = 0x3D#8 ∨ memReadInvv c = 1#1) →
      (∃ i, t[i]? = some 0x3D#8 ∧
        ¬(i + 1 = t.length ∨ (i + 2 = t.length ∧ t[i + 1]? = some 0x3D#8))) →
      decodeMessage t = .error .invalidPadding)

/-- R112: the strings that pass the padding check hold `=` nowhere, or only last, or only in the last two places; every
such string of a good length without an invalid character is decoded. -/
def Obligations.OnlyTrailingPaddingIsDecoded : Prop :=
  ∀ t : List CharCode, t.length % 4 = 0 → (∀ c ∈ t, c = 0x3D#8 ∨ memReadInvv c = 1#1) →
    ((∃ out, decodeMessage t = .ok out) ↔
      ∃ body k, t = body ++ List.replicate k 0x3D#8 ∧ k ≤ 2 ∧ 0x3D#8 ∉ body)

/-- R124: the length of a decoded message. -/
def Obligations.DecodedLengthLaw : Prop :=
  ∀ (body : List CharCode) (k : Nat) (out : List Byte), 0x3D#8 ∉ body →
    decodeMessage (body ++ List.replicate k 0x3D#8) = .ok out →
    out.length = 3 * ((body.length + k) / 4) - k

/-- R125: the low bits of the last data character that fit no byte are not checked. -/
def Obligations.TrailingBitsAreIgnored : Prop :=
  (∀ c0 c1 c1' : CharCode, memReadInvv c0 = 1#1 → memReadInvv c1 = 1#1 → memReadInvv c1' = 1#1 →
    (memReadInv c1).extractLsb' 4 2 = (memReadInv c1').extractLsb' 4 2 →
    decodeMessage [c0, c1, 0x3D#8, 0x3D#8] = .ok [memReadInv c0 ++ (memReadInv c1).extractLsb' 4 2] ∧
    decodeMessage [c0, c1', 0x3D#8, 0x3D#8] = decodeMessage [c0, c1, 0x3D#8, 0x3D#8]) ∧
  ∀ c0 c1 c2 c2' : CharCode, memReadInvv c0 = 1#1 → memReadInvv c1 = 1#1 → memReadInvv c2 = 1#1 →
    memReadInvv c2' = 1#1 → (memReadInv c2).extractLsb' 2 4 = (memReadInv c2').extractLsb' 2 4 →
    decodeMessage [c0, c1, c2, 0x3D#8] =
      .ok [memReadInv c0 ++ (memReadInv c1).extractLsb' 4 2,
        (memReadInv c1).extractLsb' 0 4 ++ (memReadInv c2).extractLsb' 2 4] ∧
    decodeMessage [c0, c1, c2', 0x3D#8] = decodeMessage [c0, c1, c2, 0x3D#8]

/-- R126: white space, line breaks and the URL-safe symbols are invalid characters at every place of a string whose
length is a multiple of 4. -/
def Obligations.WhiteSpaceAndUrlSafeSymbolsAreRejected : Prop :=
  ∀ (t : List CharCode) (c : CharCode), t.length % 4 = 0 → c ∈ t →
    c ∈ [0x20#8, 0x09#8, 0x0A#8, 0x0D#8, 0x2D#8, 0x5F#8] →
    ∃ i d, t[i]? = some d ∧ decodeMessage t = .error (.invalidCharacter (BitVec.ofNat 32 i) d)

/-- R129: decoding an encoded message gives it back. -/
def Obligations.DecodeOfEncodeIsTheMessage : Prop :=
  ∀ b : List Byte, decodeMessage (encodeMessage b) = .ok b

/-- R129 for one group, on the machine: the word an encoder operation answers with, presented as the only group of a
four-character message, is answered with the bytes that were encoded. -/
def Obligations.EncodedGroupDecodesOnTheMachine : Prop :=
  ∀ (s t : State) (rsp : Response) (b0 b1 b2 : Byte),
    s.regs = ⟨.expectGroup, 4#32, 0#32, .none, 0#32, 0#8⟩ →
    let answer (count : BitVec 3) (data : Payload) : Host.Outcome State Fault Refusal := .next { t with
      regs := ⟨.done, 4#32, 4#32, .none, 0#32, 0#8⟩
      response := some ⟨.ok, true, count, 0#32, 0#8, data⟩ }
    (exec (.enc1 b0) s = .next t → t.response = some rsp →
      exec (decode (mkRequest 0x5#4 rsp.data)) t = answer 1#3 (0#8 ++ b0 ++ 0#8 ++ 0#8)) ∧
    (exec (.enc2 b0 b1) s = .next t → t.response = some rsp →
      exec (decode (mkRequest 0x5#4 rsp.data)) t = answer 2#3 (0#8 ++ b0 ++ b1 ++ 0#8)) ∧
    (exec (.enc3 b0 b1 b2) s = .next t → t.response = some rsp →
      exec (decode (mkRequest 0x5#4 rsp.data)) t = answer 3#3 (0#8 ++ b0 ++ b1 ++ b2))

/-- R123: for every string, running the expansion of `DECODE t` from any state, with any transactions interleaved that
belong to no decode message, opens one message, and its result is `decode(t)`. DGRPs presented after the expansion do not
change it (R145); of an expansion stopped early, which it may be once a response has `done = 1` (R73), the result is
`decode(t)` or there is none yet, the latter being the model's choice (DESIGN CHOICE, log entry 13). -/
def Obligations.DecodeExpansionComputesDecode : Prop :=
  ∀ (s : State) (t : List CharCode) (ws : List Request), t.length < 2 ^ 32 →
    (∀ extra : List Request, (∀ w ∈ extra, reqOpc w = 0x5#4) →
      ws.filter isMessageRequest = (decodeOps t).map encode ++ extra →
      messageResults (fullTranscript (presentAll s ws)) = [some (decodeMessage t)]) ∧
    ∀ k : Nat, 0 < k → ws.filter isMessageRequest = ((decodeOps t).map encode).take k →
      messageResults (fullTranscript (presentAll s ws)) = [none] ∨
      messageResults (fullTranscript (presentAll s ws)) = [some (decodeMessage t)]

/-- R129 on the machine: encode a message by its transactions, present the characters that come back as a decode
message, and the message result is the message. -/
def Obligations.MessageRoundTripOnTheMachine : Prop :=
  ∀ (s s' : State) (b : List Byte), (encodeMessage b).length < 2 ^ 32 →
    let text := encodedText (fullTranscript (presentAll s ((encodeOps b).map encode)))
    messageResults (fullTranscript (presentAll s' ((decodeOps text).map encode))) = [some (.ok b)]
end

