-- ==== Sys2Proof/Laws/State.lean ====
section
/-! SUPPORT. One lemma per field and update, so that no later proof unfolds a record update. -/

namespace Sys2Proof.Machine

variable (s : State) (t : Regs × Response) (rsp : Response) (r : Regs)

@[simp] theorem respond_regs : (respond s t).regs = t.1 := rfl
@[simp] theorem respond_pending : (respond s t).pending = s.pending := rfl
@[simp] theorem respond_response : (respond s t).response = some t.2 := rfl

@[simp] theorem respondOnly_regs : (respondOnly s rsp).regs = s.regs := rfl
@[simp] theorem respondOnly_pending : (respondOnly s rsp).pending = s.pending := rfl
@[simp] theorem respondOnly_response : (respondOnly s rsp).response = some rsp := rfl

@[simp] theorem resetInput_regs : (resetInput s).regs = Regs.reset := rfl
@[simp] theorem resetInput_pending : (resetInput s).pending = s.pending := rfl
@[simp] theorem resetInput_response : (resetInput s).response = none := rfl

@[simp] theorem takeInput_regs (rest : List HostInput) : (takeInput s rest).regs = s.regs := rfl
@[simp] theorem takeInput_pending (rest : List HostInput) : (takeInput s rest).pending = rest := rfl
@[simp] theorem takeInput_response (rest : List HostInput) : (takeInput s rest).response = s.response := rfl

@[simp] theorem presentNext_regs (w : Request) : (presentNext s w).regs = s.regs := rfl
@[simp] theorem presentNext_pending (w : Request) : (presentNext s w).pending = .request w :: s.pending := rfl
@[simp] theorem presentNext_response (w : Request) : (presentNext s w).response = s.response := rfl

@[simp] theorem presentAll_regs (ws : List Request) : (presentAll s ws).regs = s.regs := rfl
@[simp] theorem presentAll_pending (ws : List Request) : (presentAll s ws).pending = ws.map .request := rfl
@[simp] theorem presentAll_response (ws : List Request) : (presentAll s ws).response = s.response := rfl

@[simp] theorem Regs.reset_decState : Regs.reset.decState = .done := rfl
@[simp] theorem Regs.reset_decLen : Regs.reset.decLen = 0#32 := rfl
@[simp] theorem Regs.reset_decPos : Regs.reset.decPos = 0#32 := rfl
@[simp] theorem Regs.reset_decErr : Regs.reset.decErr = .none := rfl
@[simp] theorem Regs.reset_decErrIndex : Regs.reset.decErrIndex = 0#32 := rfl
@[simp] theorem Regs.reset_decErrChar : Regs.reset.decErrChar = 0#8 := rfl

@[simp] theorem State.reset_regs : State.reset.regs = Regs.reset := rfl
@[simp] theorem State.reset_pending : State.reset.pending = [] := rfl
@[simp] theorem State.reset_response : State.reset.response = none := rfl

/-! `raise` writes the state, the error kind and, for one error only, its detail. -/

@[simp] theorem raise_decState (e : DecodeError) : (raise e r).decState = .rejected := by cases e <;> rfl
@[simp] theorem raise_decLen (e : DecodeError) : (raise e r).decLen = r.decLen := by cases e <;> rfl
@[simp] theorem raise_decPos (e : DecodeError) : (raise e r).decPos = r.decPos := by cases e <;> rfl
@[simp] theorem raise_malformed_decErr : (raise .malformedLength r).decErr = .malformedLength := rfl
@[simp] theorem raise_malformed_decErrIndex : (raise .malformedLength r).decErrIndex = r.decErrIndex := rfl
@[simp] theorem raise_malformed_decErrChar : (raise .malformedLength r).decErrChar = r.decErrChar := rfl
@[simp] theorem raise_character_decErr (n : Len) (c : CharCode) :
    (raise (.invalidCharacter n c) r).decErr = .invalidCharacter := rfl
@[simp] theorem raise_character_decErrIndex (n : Len) (c : CharCode) :
    (raise (.invalidCharacter n c) r).decErrIndex = n := rfl
@[simp] theorem raise_character_decErrChar (n : Len) (c : CharCode) :
    (raise (.invalidCharacter n c) r).decErrChar = c := rfl
@[simp] theorem raise_padding_decErr : (raise .invalidPadding r).decErr = .invalidPadding := rfl
@[simp] theorem raise_padding_decErrIndex : (raise .invalidPadding r).decErrIndex = r.decErrIndex := rfl
@[simp] theorem raise_padding_decErrChar : (raise .invalidPadding r).decErrChar = r.decErrChar := rfl

@[simp] theorem clearForMessage_decState (len : Len) : (clearForMessage len r).decState = r.decState := rfl
@[simp] theorem clearForMessage_decLen (len : Len) : (clearForMessage len r).decLen = len := rfl
@[simp] theorem clearForMessage_decPos (len : Len) : (clearForMessage len r).decPos = 0#32 := rfl
@[simp] theorem clearForMessage_decErr (len : Len) : (clearForMessage len r).decErr = .none := rfl
@[simp] theorem clearForMessage_decErrIndex (len : Len) : (clearForMessage len r).decErrIndex = 0#32 := rfl
@[simp] theorem clearForMessage_decErrChar (len : Len) : (clearForMessage len r).decErrChar = 0#8 := rfl

/-! The common ending of an accepted group advances the position and keeps the rest. -/

@[simp] theorem finishGroup_decState (t : Regs × Emitted) : (finishGroup t).1.decState = t.1.decState := rfl
@[simp] theorem finishGroup_decLen (t : Regs × Emitted) : (finishGroup t).1.decLen = t.1.decLen := rfl
@[simp] theorem finishGroup_decPos (t : Regs × Emitted) : (finishGroup t).1.decPos = t.1.decPos + 4#32 := rfl
@[simp] theorem finishGroup_decErr (t : Regs × Emitted) : (finishGroup t).1.decErr = t.1.decErr := rfl
@[simp] theorem finishGroup_decErrIndex (t : Regs × Emitted) :
    (finishGroup t).1.decErrIndex = t.1.decErrIndex := rfl
@[simp] theorem finishGroup_decErrChar (t : Regs × Emitted) :
    (finishGroup t).1.decErrChar = t.1.decErrChar := rfl
@[simp] theorem finishGroup_status (t : Regs × Emitted) : (finishGroup t).2.status = t.1.decErr.status := rfl
@[simp] theorem finishGroup_count (t : Regs × Emitted) : (finishGroup t).2.count = t.2.1 := rfl
@[simp] theorem finishGroup_data (t : Regs × Emitted) : (finishGroup t).2.data = t.2.2 := rfl

/-! The two shapes of a response. -/

@[simp] theorem plainResponse_status (n : BitVec 3) (d : Payload) : (plainResponse n d).status = .ok := rfl
@[simp] theorem plainResponse_done (n : BitVec 3) (d : Payload) : (plainResponse n d).done = false := rfl
@[simp] theorem plainResponse_count (n : BitVec 3) (d : Payload) : (plainResponse n d).count = n := rfl
@[simp] theorem plainResponse_errIndex (n : BitVec 3) (d : Payload) : (plainResponse n d).errIndex = 0#32 := rfl
@[simp] theorem plainResponse_errChar (n : BitVec 3) (d : Payload) : (plainResponse n d).errChar = 0#8 := rfl
@[simp] theorem plainResponse_data (n : BitVec 3) (d : Payload) : (plainResponse n d).data = d := rfl

@[simp] theorem decoderResponse_status (st : Status) (n : BitVec 3) (d : Payload) :
    (decoderResponse r st n d).status = st := rfl
@[simp] theorem decoderResponse_done (st : Status) (n : BitVec 3) (d : Payload) :
    (decoderResponse r st n d).done = isFinal r := rfl
@[simp] theorem decoderResponse_count (st : Status) (n : BitVec 3) (d : Payload) :
    (decoderResponse r st n d).count = n := rfl
@[simp] theorem decoderResponse_errIndex (st : Status) (n : BitVec 3) (d : Payload) :
    (decoderResponse r st n d).errIndex = r.decErrIndex := rfl
@[simp] theorem decoderResponse_errChar (st : Status) (n : BitVec 3) (d : Payload) :
    (decoderResponse r st n d).errChar = r.decErrChar := rfl
@[simp] theorem decoderResponse_data (st : Status) (n : BitVec 3) (d : Payload) :
    (decoderResponse r st n d).data = d := rfl

end Sys2Proof.Machine
end

