-- ==== Sys2Proof/Laws/Decode.lean ====
section
/-! SUPPORT. The request word's two fields, and the lanes of a word put together from its parts. -/

namespace Sys2Proof

/-- A concatenation as a number. -/
theorem toNat_concat {n m : Nat} (x : BitVec n) (y : BitVec m) : (x ++ y).toNat = x.toNat * 2 ^ m + y.toNat := by
  rw [BitVec.toNat_append, ← Nat.shiftLeft_add_eq_or_of_lt y.isLt, Nat.shiftLeft_eq]

theorem mkRequest_toNat (opc : BitVec 4) (p : Payload) :
    (mkRequest opc p).toNat = opc.toNat * 2 ^ 32 + p.toNat := toNat_concat opc p

@[simp] theorem reqOpc_mkRequest (opc : BitVec 4) (p : Payload) : reqOpc (mkRequest opc p) = opc :=
  BitVec.extractLsb'_append_eq_left

@[simp] theorem reqPayload_mkRequest (opc : BitVec 4) (p : Payload) : reqPayload (mkRequest opc p) = p :=
  BitVec.extractLsb'_append_eq_right

/-- A request word is nothing but its two fields (R60). -/
theorem mkRequest_fields (w : Request) : mkRequest (reqOpc w) (reqPayload w) = w := by
  apply BitVec.eq_of_toNat_eq
  have := w.isLt
  rw [mkRequest_toNat, reqOpc, reqPayload, BitVec.extractLsb'_toNat, BitVec.extractLsb'_toNat,
    Nat.shiftRight_eq_div_pow, Nat.shiftRight_eq_div_pow]
  omega

section lanes
variable (a b c d : BitVec 8) (p : Payload)

theorem lanes_toNat :
    (a ++ b ++ c ++ d : Payload).toNat = ((a.toNat * 2 ^ 8 + b.toNat) * 2 ^ 8 + c.toNat) * 2 ^ 8 + d.toNat := by
  rw [← toNat_concat a b, ← toNat_concat (a ++ b) c]
  exact toNat_concat _ d

theorem lane0_toNat : (lane0 p).toNat = p.toNat / 2 ^ 24 % 2 ^ 8 := by
  rw [lane0, BitVec.extractLsb'_toNat, Nat.shiftRight_eq_div_pow]

theorem lane1_toNat : (lane1 p).toNat = p.toNat / 2 ^ 16 % 2 ^ 8 := by
  rw [lane1, BitVec.extractLsb'_toNat, Nat.shiftRight_eq_div_pow]

theorem lane2_toNat : (lane2 p).toNat = p.toNat / 2 ^ 8 % 2 ^ 8 := by
  rw [lane2, BitVec.extractLsb'_toNat, Nat.shiftRight_eq_div_pow]

theorem lane3_toNat : (lane3 p).toNat = p.toNat % 2 ^ 8 := by
  rw [lane3, BitVec.extractLsb'_toNat, Nat.shiftRight_eq_div_pow, Nat.pow_zero, Nat.div_one]

@[simp] theorem lane0_lanes : lane0 (a ++ b ++ c ++ d) = a := by
  apply BitVec.eq_of_toNat_eq
  have := a.isLt; have := b.isLt; have := c.isLt; have := d.isLt
  rw [lane0_toNat, lanes_toNat]
  omega

@[simp] theorem lane1_lanes : lane1 (a ++ b ++ c ++ d) = b := by
  apply BitVec.eq_of_toNat_eq
  have := a.isLt; have := b.isLt; have := c.isLt; have := d.isLt
  rw [lane1_toNat, lanes_toNat]
  omega

@[simp] theorem lane2_lanes : lane2 (a ++ b ++ c ++ d) = c := by
  apply BitVec.eq_of_toNat_eq
  have := a.isLt; have := b.isLt; have := c.isLt; have := d.isLt
  rw [lane2_toNat, lanes_toNat]
  omega

@[simp] theorem lane3_lanes : lane3 (a ++ b ++ c ++ d) = d := by
  apply BitVec.eq_of_toNat_eq
  have := a.isLt; have := b.isLt; have := c.isLt; have := d.isLt
  rw [lane3_toNat, lanes_toNat]
  omega

end lanes

namespace Machine

@[simp] theorem charLanes_packChars (c0 c1 c2 c3 : CharCode) : charLanes (packChars c0 c1 c2 c3) = [c0, c1, c2, c3] := by
  simp [charLanes, packChars]

@[simp] theorem byteLanes_packBytes (b0 b1 b2 : Byte) : byteLanes (packBytes b0 b1 b2) = [b0, b1, b2] := by
  simp [byteLanes, packBytes]

/-- The table word of a row is the request word the step takes (one request word, bit 0 first). -/
theorem withFetchWord_pending (s : State) (nbits w : Nat) :
    (s.withFetchWord nbits w).pending = .request (BitVec.ofNat 36 (tableNumber nbits w)) :: s.pending := rfl

end Machine

end Sys2Proof
end

