-- ==== Sys2Proof/Laws/Rom.lean ====
section
/-! SUPPORT. What the ROMs say of one entry: the facts later proofs cite instead of evaluating the tables. -/

namespace Sys2Proof.Machine

set_option maxRecDepth 4000 in
theorem isValid_charOfSym : ∀ i : Index, isValid (charOfSym (memReadSym i)) = true := by decide

set_option maxRecDepth 4000 in
theorem memReadInv_charOfSym : ∀ i : Index, memReadInv (charOfSym (memReadSym i)) = i := by decide

set_option maxRecDepth 10000 in
theorem charOfSym_memReadInv : ∀ c : CharCode, isValid c = true → charOfSym (memReadSym (memReadInv c)) = c := by
  decide

theorem isValid_pad : isValid Config.pad = false := by decide

@[simp] theorem isPad_pad : isPad Config.pad = true := by decide

@[simp] theorem isOffending_pad : isOffending Config.pad = false := by decide

theorem isPad_iff (c : CharCode) : isPad c = true ↔ c = Config.pad := by simp [isPad]

theorem not_isPad_of_isValid (c : CharCode) (h : isValid c = true) : isPad c = false := by
  cases hp : isPad c with
  | false => rfl
  | true =>
    rw [(isPad_iff c).1 hp, isValid_pad] at h
    cases h

theorem isOffending_of_isValid (c : CharCode) (h : isValid c = true) : isOffending c = false := by
  simp [isOffending, h]

theorem isOffending_eq_false (c : CharCode) : isOffending c = false ↔ c = Config.pad ∨ isValid c = true := by
  simp only [isOffending, Bool.and_eq_false_iff, Bool.not_eq_false', isPad_iff]

@[simp] theorem isPad_charOfSym (i : Index) : isPad (charOfSym (memReadSym i)) = false :=
  not_isPad_of_isValid _ (isValid_charOfSym i)

@[simp] theorem isOffending_charOfSym (i : Index) : isOffending (charOfSym (memReadSym i)) = false :=
  isOffending_of_isValid _ (isValid_charOfSym i)

end Sys2Proof.Machine
end

