-- ==== Sys2Proof/Laws/Ops.lean ====
section
/-! SUPPORT. One lemma for each shared operation, saying once everything it can do. -/

namespace Sys2Proof.Machine

variable {c0 c1 c2 c3 c : CharCode} {j : Fin 4} {r : Regs}

theorem firstOffending_eq_none :
    firstOffending c0 c1 c2 c3 = none ↔
      isOffending c0 = false ∧ isOffending c1 = false ∧ isOffending c2 = false ∧ isOffending c3 = false := by
  simp only [firstOffending]
  split_ifs <;> simp_all

/-- The lane found holds an offending character and no lower lane does. -/
theorem firstOffending_eq_some :
    firstOffending c0 c1 c2 c3 = some (j, c) ↔
      c = ![c0, c1, c2, c3] j ∧ isOffending c = true ∧ ∀ k < j, isOffending (![c0, c1, c2, c3] k) = false := by
  have forall_lt : ∀ (n : Fin 4) (P : Fin 4 → Prop),
      (∀ k < n, P k) ↔ (0 < n → P 0) ∧ (1 < n → P 1) ∧ (2 < n → P 2) := by
    intro n P
    constructor
    · exact fun h => ⟨h 0, h 1, h 2⟩
    · rintro ⟨h0, h1, h2⟩ k hk
      fin_cases k
      · exact h0 hk
      · exact h1 hk
      · exact h2 hk
      · exact absurd (show (3 : Fin 4) < n from hk) (by omega)
  rw [forall_lt]
  simp only [firstOffending]
  fin_cases j <;> split_ifs <;> simp_all <;> aesop

/-- A character found by the scan offends. -/
theorem isOffending_of_firstOffending (h : firstOffending c0 c1 c2 c3 = some (j, c)) : isOffending c = true :=
  (firstOffending_eq_some.1 h).2.1

/-- The three ways DSTART can go (R116). -/
theorem startMessage_cases (len : Len) (r : Regs) :
    (len.extractLsb' 0 2 ≠ 0b00#2 ∧ startMessage len r = ⟨.rejected, len, 0#32, .malformedLength, 0#32, 0#8⟩) ∨
    (len = 0#32 ∧ startMessage 0#32 r = ⟨.done, 0#32, 0#32, .none, 0#32, 0#8⟩) ∨
    (len.extractLsb' 0 2 = 0b00#2 ∧ len ≠ 0#32 ∧
      startMessage len r = ⟨.expectGroup, len, 0#32, .none, 0#32, 0#8⟩) := by
  by_cases h : len.extractLsb' 0 2 = 0b00#2
  · by_cases h0 : len = 0#32
    · exact .inr (.inl ⟨h0, rfl⟩)
    · exact .inr (.inr ⟨h, h0, by simp [startMessage, clearForMessage, h, h0]⟩)
  · exact .inl ⟨h, by simp [startMessage, clearForMessage, raise, h]⟩

/-- The three ways an accepted group in `ExpectGroup` can go (R118). -/
theorem decodeGroup_cases (c0 c1 c2 c3 : CharCode) (r : Regs) :
    (∃ j c, firstOffending c0 c1 c2 c3 = some (j, c) ∧
      decodeGroup c0 c1 c2 c3 r = (raise (.invalidCharacter (r.decPos + BitVec.ofNat 32 j.val) c) r, emitNone)) ∨
    (firstOffending c0 c1 c2 c3 = none ∧ padCount c0 c1 c2 c3 (isLastGroup r) = none ∧
      decodeGroup c0 c1 c2 c3 r = (raise .invalidPadding r, emitNone)) ∨
    (∃ p : Fin 3, firstOffending c0 c1 c2 c3 = none ∧ padCount c0 c1 c2 c3 (isLastGroup r) = some p ∧
      decodeGroup c0 c1 c2 c3 r =
        (if isLastGroup r then { r with decState := .done } else r,
          3#3 - BitVec.ofNat 3 p.val,
          packBytes (pack c0 c1 c2 c3 p).1 (if p ≤ 1 then (pack c0 c1 c2 c3 p).2.1 else 0#8)
            (if p = 0 then (pack c0 c1 c2 c3 p).2.2 else 0#8))) := by
  cases hf : firstOffending c0 c1 c2 c3 with
  | some jc => exact .inl ⟨jc.1, jc.2, rfl, by simp only [decodeGroup, decGroup, decGroupVia, hf]⟩
  | none =>
    cases hp : padCount c0 c1 c2 c3 (isLastGroup r) with
    | none => exact .inr (.inl ⟨rfl, rfl, by simp only [decodeGroup, decGroup, decGroupVia, hf, hp]⟩)
    | some p =>
      refine .inr (.inr ⟨p, rfl, rfl, ?_⟩)
      have hs : endOfInput (finalGroupState (3#3 - BitVec.ofNat 3 p.val)) = .done := by
        fin_cases p <;> rfl
      simp only [decodeGroup, decGroup, decGroupVia, hf, hp, emitBytes, hs, pack]

/-- The two ways an absorbed group can go (R119): the error is superseded, or nothing changes. -/
theorem absorbGroup_cases (c0 c1 c2 c3 : CharCode) (r : Regs) :
    (∃ j c, r.decErr = .invalidPadding ∧ firstOffending c0 c1 c2 c3 = some (j, c) ∧
      absorbGroup c0 c1 c2 c3 r = (raise (.invalidCharacter (r.decPos + BitVec.ofNat 32 j.val) c) r, emitNone)) ∨
    ((r.decErr = .invalidPadding → firstOffending c0 c1 c2 c3 = none) ∧
      absorbGroup c0 c1 c2 c3 r = (r, emitNone)) := by
  by_cases he : r.decErr = .invalidPadding
  · cases hf : firstOffending c0 c1 c2 c3 with
    | some jc => exact .inl ⟨jc.1, jc.2, he, rfl, by simp only [absorbGroup, he, hf, if_true]⟩
    | none => exact .inr ⟨fun _ => rfl, by simp only [absorbGroup, he, hf, if_true]⟩
  · exact .inr ⟨fun h => absurd h he, by simp only [absorbGroup, he, if_false]⟩

/-- The acceptance test of DGRP (R117). -/
theorem groupTransaction_cases (c0 c1 c2 c3 : CharCode) (r : Regs) :
    (accepting r = false ∧ groupTransaction c0 c1 c2 c3 r = (r, decoderResponse r .protocol 0#3 0#32)) ∨
    (accepting r = true ∧ r.decState = .expectGroup ∧
      groupTransaction c0 c1 c2 c3 r = finishGroup (decodeGroup c0 c1 c2 c3 r)) ∨
    (accepting r = true ∧ r.decState = .rejected ∧ r.decErr ≠ .malformedLength ∧ r.decPos < r.decLen ∧
      groupTransaction c0 c1 c2 c3 r = finishGroup (absorbGroup c0 c1 c2 c3 r)) := by
  cases ha : accepting r with
  | false => exact .inl ⟨rfl, by simp [groupTransaction, ha]⟩
  | true =>
    by_cases hs : r.decState = .expectGroup
    · exact .inr (.inl ⟨rfl, hs, by simp [groupTransaction, ha, hs]⟩)
    · have h := ha
      simp only [accepting, Bool.or_eq_true, Bool.and_eq_true, beq_iff_eq, bne_iff_ne, decide_eq_true_eq, hs,
        false_or] at h
      exact .inr (.inr ⟨rfl, h.1.1, h.1.2, h.2, by simp [groupTransaction, ha, hs]⟩)

end Sys2Proof.Machine
end

