-- ==== Sys2Proof/Laws/Exec.lean ====
section
/-! SUPPORT. What `exec` and `step` can do, said once: every operation answers, and it touches the state only through
`respond`. -/

namespace Sys2Proof.Machine

/-- The registers and the response of an operation, from the registers before it. -/
def transactionOf (i : Instr) (r : Regs) : Regs × Response :=
  match i with
  | .enc0 => (r, plainResponse (encGroup 0 (byteGroup 0#8 0#8 0#8)).1 (encGroup 0 (byteGroup 0#8 0#8 0#8)).2)
  | .enc1 b0 => (r, plainResponse (encGroup 1 (byteGroup b0 0#8 0#8)).1 (encGroup 1 (byteGroup b0 0#8 0#8)).2)
  | .enc2 b0 b1 => (r, plainResponse (encGroup 2 (byteGroup b0 b1 0#8)).1 (encGroup 2 (byteGroup b0 b1 0#8)).2)
  | .enc3 b0 b1 b2 => (r, plainResponse (encGroup 3 (byteGroup b0 b1 b2)).1 (encGroup 3 (byteGroup b0 b1 b2)).2)
  | .dstart len => (startMessage len r, decoderResponse (startMessage len r) (startMessage len r).decErr.status 0#3 0#32)
  | .dgrp c0 c1 c2 c3 => groupTransaction c0 c1 c2 c3 r
  | .symat i6 => (r, plainResponse 1#3 ((memReadSym i6).zeroExtend 32))
  | .idxof c => (r, plainResponse ((memReadInvv c).zeroExtend 3) ((memReadInv c).zeroExtend 32))
  | .dstat => (r, decoderResponse r r.decErr.status 0#3 r.decPos)
  | .reserved9 => (r, { Response.blank with status := .illegalRequest })
  | .reservedA => (r, { Response.blank with status := .illegalRequest })
  | .reservedB => (r, { Response.blank with status := .illegalRequest })
  | .reservedC => (r, { Response.blank with status := .illegalRequest })
  | .reservedD => (r, { Response.blank with status := .illegalRequest })
  | .reservedE => (r, { Response.blank with status := .illegalRequest })
  | .reservedF => (r, { Response.blank with status := .illegalRequest })

theorem exec_eq_respond (i : Instr) (s : State) : exec i s = .next (respond s (transactionOf i s.regs)) := by
  cases i <;> rfl

theorem step_request {s : State} {w : Request} {rest : List HostInput} (h : s.pending = .request w :: rest) :
    step s = .next (respond (takeInput s rest) (transactionOf (decode w) s.regs)) := by
  simp only [step, h, exec_eq_respond, takeInput_regs]

theorem step_reset {s : State} {rest : List HostInput} (h : s.pending = .reset :: rest) :
    step s = .next (resetInput (takeInput s rest)) := by
  simp only [step, h]

theorem step_idle {s : State} (h : s.pending = []) : step s = .next s := by
  simp only [step, h]

/-- Everything a step can do: nothing, a reset, or one transaction. -/
theorem step_cases {s s' : State} (h : step s = .next s') :
    (s.pending = [] ∧ s' = s) ∨
    (∃ rest, s.pending = .reset :: rest ∧ s' = resetInput (takeInput s rest)) ∨
    (∃ w rest, s.pending = .request w :: rest ∧
      s' = respond (takeInput s rest) (transactionOf (decode w) s.regs)) := by
  match hp : s.pending with
  | [] =>
    rw [step_idle hp] at h
    exact .inl ⟨rfl, (Host.Outcome.next.inj h).symm⟩
  | .reset :: rest =>
    rw [step_reset hp] at h
    exact .inr (.inl ⟨rest, rfl, (Host.Outcome.next.inj h).symm⟩)
  | .request w :: rest =>
    rw [step_request hp] at h
    exact .inr (.inr ⟨w, rest, rfl, (Host.Outcome.next.inj h).symm⟩)

end Sys2Proof.Machine
end

