-- ==== Sys2Proof/Laws/Message.lean ====
section
/-! SUPPORT. A run and its messages without the machine around them: the transcript as a function of the registers and
the inputs, and the cut into messages of two transcripts put together. -/

namespace Sys2Proof.Machine

/-! ### The transcript of a run -/

/-- What happens on the port while the inputs are taken, from the registers before them. -/
def eventsOf (r : Regs) : List HostInput → List PortEvent
  | [] => []
  | .reset :: xs => .reset :: eventsOf Regs.reset xs
  | .request w :: xs => .answered w (transactionOf (decode w) r).2 :: eventsOf (transactionOf (decode w) r).1 xs

/-- The registers after the inputs are taken. -/
def regsAfter (r : Regs) : List HostInput → Regs
  | [] => r
  | .reset :: xs => regsAfter Regs.reset xs
  | .request w :: xs => regsAfter (transactionOf (decode w) r).1 xs

/-- The transcript depends on the registers and the inputs only. -/
theorem fullTranscript_eq (s : State) : fullTranscript s = eventsOf s.regs s.pending := by
  have key : ∀ (xs : List HostInput) (s : State), s.pending = xs → transcript xs.length s = eventsOf s.regs xs := by
    intro xs
    induction xs with
    | nil => exact fun _ _ => rfl
    | cons x xs ih =>
      intro s h
      cases x with
      | reset => simp [transcript, h, step_reset h, eventsOf, ih (resetInput (takeInput s xs)) rfl]
      | request w => simp [transcript, h, step_request h, eventsOf, ih _ (respond_pending (takeInput s xs) _)]
  exact key s.pending s rfl

theorem eventsOf_append (r : Regs) (xs ys : List HostInput) :
    eventsOf r (xs ++ ys) = eventsOf r xs ++ eventsOf (regsAfter r xs) ys := by
  induction xs generalizing r with
  | nil => rfl
  | cons x xs ih => cases x <;> simp [eventsOf, regsAfter, ih]

/-- A run takes every input and ends with the registers `regsAfter` says. -/
theorem run_pending (s : State) : ∃ t, Sys2Proof.core.run s.pending.length s = .next t ∧ t.pending = [] ∧
    t.regs = regsAfter s.regs s.pending := by
  have key : ∀ (xs : List HostInput) (s : State), s.pending = xs →
      ∃ t, Sys2Proof.core.run xs.length s = .next t ∧ t.pending = [] ∧ t.regs = regsAfter s.regs xs := by
    intro xs
    induction xs with
    | nil => exact fun s h => ⟨s, rfl, h, rfl⟩
    | cons x xs ih =>
      intro s h
      have next : ∀ t, step s = .next t → Sys2Proof.core.run (x :: xs).length s = Sys2Proof.core.run xs.length t := by
        intro t ht
        simp only [List.length_cons, Host.Core.run, Sys2Proof.core, ht]
      cases x with
      | reset =>
        rw [next _ (step_reset h)]
        exact ih _ rfl
      | request w =>
        rw [next _ (step_request h)]
        exact ih _ (respond_pending (takeInput s xs) _)
  exact key s.pending s rfl

/-! ### The cut into messages -/

@[simp] theorem splitMessages_nil : splitMessages [] = ([], []) := rfl

@[simp] theorem splitMessages_cons (e : PortEvent) (tr : List PortEvent) :
    splitMessages (e :: tr) = prependEvent e (splitMessages tr) := rfl

/-- A longer transcript is cut as its two parts are, but that the groups in front of the second part belong to the
message still open at the end of the first. -/
theorem splitMessages_append (a b : List PortEvent) :
    splitMessages (a ++ b) = a.foldr prependEvent (splitMessages b) := by
  rw [splitMessages, List.foldr_append]; rfl

/-- Messages that stand later take no part in the cut of what comes before. -/
theorem foldr_prependEvent (a : List PortEvent) (ms : List DecodeMessage) :
    a.foldr prependEvent ([], ms) = ((splitMessages a).1, (splitMessages a).2 ++ ms) := by
  induction a with
  | nil => rfl
  | cons e a ih =>
    rw [List.foldr_cons, ih, splitMessages_cons]
    cases e with
    | reset => rfl
    | answered w rsp => simp only [prependEvent]; split_ifs <;> rfl

/-- The block answers `Protocol` exactly where a group is not accepted (R117), so that acceptance can be read from the
response. -/
theorem groupTransaction_status (c0 c1 c2 c3 : CharCode) (r : Regs) :
    (groupTransaction c0 c1 c2 c3 r).2.status = .protocol ↔ accepting r = false := by
  have recorded : ∀ e : DecErr, e.status ≠ .protocol := by intro e; cases e <;> decide
  rcases groupTransaction_cases c0 c1 c2 c3 r with ⟨h, e⟩ | ⟨h, _, e⟩ | ⟨h, _, _, _, e⟩
  · simp [e, h]
  · simp [e, h, recorded]
  · simp [e, h, recorded]

end Sys2Proof.Machine
end

