-- ==== Sys2Proof/Laws/PerInstr.lean ====
section
/-! SUPPORT. Statements for all operations, made one operation at a time (LAWS.json). -/

namespace Sys2Proof.Laws.OpcodeField

open Sys2Proof

/-- The encoder puts the operation's code into `req[35:32]` and its operands below it, and the operation is well
formed. -/
def Statement (i : Instr) : Prop :=
  reqOpc (encode i) = opcOf i ∧ reqPayload (encode i) = payloadOf i ∧ i.wf = true

theorem holds_of_wf (i : Instr) (h : i.wf = true) : Statement i :=
  ⟨reqOpc_mkRequest _ _, reqPayload_mkRequest _ _, h⟩

theorem enc0 : Statement (.enc0) := holds_of_wf _ rfl
theorem enc1 (b0 : Byte) : Statement (.enc1 b0) := holds_of_wf _ rfl
theorem enc2 (b0 b1 : Byte) : Statement (.enc2 b0 b1) := holds_of_wf _ rfl
theorem enc3 (b0 b1 b2 : Byte) : Statement (.enc3 b0 b1 b2) := holds_of_wf _ rfl
theorem dstart (len : Len) : Statement (.dstart len) := holds_of_wf _ rfl
theorem dgrp (c0 c1 c2 c3 : CharCode) : Statement (.dgrp c0 c1 c2 c3) := holds_of_wf _ rfl
theorem symat (i : Index) : Statement (.symat i) := holds_of_wf _ rfl
theorem idxof (c : CharCode) : Statement (.idxof c) := holds_of_wf _ rfl
theorem dstat : Statement (.dstat) := holds_of_wf _ rfl
theorem reserved9 : Statement (.reserved9) := holds_of_wf _ rfl
theorem reservedA : Statement (.reservedA) := holds_of_wf _ rfl
theorem reservedB : Statement (.reservedB) := holds_of_wf _ rfl
theorem reservedC : Statement (.reservedC) := holds_of_wf _ rfl
theorem reservedD : Statement (.reservedD) := holds_of_wf _ rfl
theorem reservedE : Statement (.reservedE) := holds_of_wf _ rfl
theorem reservedF : Statement (.reservedF) := holds_of_wf _ rfl

end Sys2Proof.Laws.OpcodeField
end

