-- ==== Sys2Proof/Tests/Slice0.lean ====
section
/-! SUPPORT. Our own tests. Expected values come from the spec: the encodings of R61, R68 and R71, the tables of R81 and
R82, and the vectors of 95_test_vectors.md (cited by their ids); then one witness for the hypotheses of each statement. -/

namespace Sys2Proof.Tests

open Sys2Proof Sys2Proof.Machine

/-! ### Well-formedness: what each check refuses -/

theorem test_wf_enc1_refuses_256 : AsmLine.wf (.enc1 256) = false := by decide
theorem test_wf_enc2_refuses_256 : AsmLine.wf (.enc2 0 256) = false ∧ AsmLine.wf (.enc2 256 0) = false := by decide
theorem test_wf_enc3_refuses_256 :
    AsmLine.wf (.enc3 256 0 0) = false ∧ AsmLine.wf (.enc3 0 256 0) = false ∧ AsmLine.wf (.enc3 0 0 256) = false := by
  decide
theorem test_wf_dstart_refuses_33_bits : AsmLine.wf (.dstart 0x100000000) = false := by decide
theorem test_wf_dgrp_refuses_256 :
    AsmLine.wf (.dgrp 256 0 0 0) = false ∧ AsmLine.wf (.dgrp 0 256 0 0) = false ∧
    AsmLine.wf (.dgrp 0 0 256 0) = false ∧ AsmLine.wf (.dgrp 0 0 0 256) = false := by decide
theorem test_wf_dgrpText_refuses_three_and_wide :
    AsmLine.wf (.dgrpText [0x54, 0x57, 0x46]) = false ∧ AsmLine.wf (.dgrpText [0x54, 0x57, 0x46, 256]) = false := by decide
theorem test_wf_symat_refuses_64 : AsmLine.wf (.symat 64) = false := by decide
theorem test_wf_idxof_refuses_256 : AsmLine.wf (.idxof 256) = false := by decide
theorem test_wf_encode_refuses_256 : AsmLine.wf (.encode [0, 256]) = false := by decide
theorem test_wf_decode_refuses_256 : AsmLine.wf (.decode [256]) = false := by decide
theorem test_wf_decode_refuses_long_text (text : List Nat) (h : text.length = 2 ^ 32) :
    AsmLine.wf (.decode text) = false := by simp [AsmLine.wf, h]
theorem test_decodeNat_refuses_37_bits : decodeTableWord 40 0x1000000000 = none := by decide

/-! ### Decoding: one word for every constructor, its bits written out as R60, R61 and R68 lay them -/

theorem test_decode_enc0 : decode 0b0000_00000000_00000000_00000000_00000000#36 = .enc0 := by decide
theorem test_decode_enc1 : decode 0b0001_10101011_11111111_11001101_11101111#36 = .enc1 0xFF#8 := by decide
theorem test_decode_enc2 : decode 0b0010_00000000_01001101_01100001_11111111#36 = .enc2 77#8 97#8 := by decide
theorem test_decode_enc3 : decode 0b0011_11111111_01001101_01100001_01101110#36 = .enc3 77#8 97#8 110#8 := by decide
theorem test_decode_dstart : decode 0b0100_10000000_00000000_00000000_00000100#36 = .dstart 0x80000004#32 := by decide
theorem test_decode_dgrp :
    decode 0b0101_01010100_01010111_01000110_01110101#36 = .dgrp 0x54#8 0x57#8 0x46#8 0x75#8 := by decide
theorem test_decode_symat : decode 0b0110_10101011_11001101_11101111_00010011#36 = .symat 19#6 := by decide
theorem test_decode_idxof : decode 0b0111_10101011_11001101_11101111_01000001#36 = .idxof 0x41#8 := by decide
theorem test_decode_dstat : decode 0b1000_11011110_10101101_10111110_11101111#36 = .dstat := by decide
theorem test_decode_reserved9 : decode 0b1001_00000000_00000000_00000000_00000000#36 = .reserved9 := by decide
theorem test_decode_reservedA : decode 0b1010_00010010_00110100_01010110_01111000#36 = .reservedA := by decide
theorem test_decode_reservedB : decode 0b1011_00000000_00000000_00000000_00000000#36 = .reservedB := by decide
theorem test_decode_reservedC : decode 0b1100_01010100_01010111_01000110_01110101#36 = .reservedC := by decide
theorem test_decode_reservedD : decode 0b1101_00000000_00000000_00000000_00000000#36 = .reservedD := by decide
theorem test_decode_reservedE : decode 0b1110_00000000_00000000_00000000_00000000#36 = .reservedE := by decide
theorem test_decode_reservedF : decode 0b1111_11111111_11111111_11111111_11111111#36 = .reservedF := by decide

/-! ### One step each -/

/-- The registers and the response word after one request. -/
def answer (r : Regs) (w : Request) : Option (Regs × Option ResponseWord) :=
  match step { regs := r, pending := [.request w], response := none } with
  | .next s => some (s.regs, s.response.map Response.word)
  | .fault _ => none
  | .refused _ => none

/-- A message of `len` characters, `pos` of them consumed without failure. -/
def opened (len pos : Len) : Regs := ⟨.expectGroup, len, pos, .none, 0#32, 0#8⟩

/-- V-E2. -/
theorem test_enc0 : answer Regs.reset 0x0FFFFFFFF#36 = some (Regs.reset, some 0x00000000000000000000#80) := by decide
/-- V-S4: the two bits stay at the top of the index. -/
theorem test_enc1 : answer Regs.reset 0x100FF0000#36 = some (Regs.reset, some 0x0400000000002F773D3D#80) := by decide
/-- V-S5. -/
theorem test_enc2 : answer Regs.reset 0x200FFFF00#36 = some (Regs.reset, some 0x0400000000002F2F383D#80) := by decide
/-- V-S1. -/
theorem test_enc3 : answer Regs.reset 0x3004D616E#36 = some (Regs.reset, some 0x04000000000054574675#80) := by decide
/-- V-DG11: a length that is no multiple of 4. -/
theorem test_dstart_malformed :
    answer Regs.reset 0x4FFFFFFFD#36 =
      some (⟨.rejected, 0xFFFFFFFD#32, 0#32, .malformedLength, 0#32, 0#8⟩, some 0x18000000000000000000#80) := by decide
/-- V-X.17: a new message abandons a rejected one. -/
theorem test_dstart_restarts :
    answer ⟨.rejected, 6#32, 0#32, .malformedLength, 0#32, 0#8⟩ 0x400000008#36 =
      some (opened 8#32 0#32, some 0x00000000000000000000#80) := by decide
/-- V-DG35. -/
theorem test_dgrp_one_padding :
    answer (opened 4#32 0#32) 0x52F2F383D#36 =
      some (⟨.done, 4#32, 4#32, .none, 0#32, 0#8⟩, some 0x0A000000000000FFFF00#80) := by decide
/-- P3.4: an invalid character supersedes a recorded padding error. -/
theorem test_dgrp_supersedes :
    answer ⟨.rejected, 8#32, 4#32, .invalidPadding, 0#32, 0#8⟩ 0x541414121#36 =
      some (⟨.rejected, 8#32, 8#32, .invalidCharacter, 7#32, 0x21#8⟩, some 0x28000000072100000000#80) := by decide
/-- V-L13. -/
theorem test_symat : answer Regs.reset 0x6ABCDEF13#36 = some (Regs.reset, some 0x01000000000000000054#80) := by decide
/-- V-L23: the data word of `=` is that of `A`, its validity is not. -/
theorem test_idxof_pad : answer Regs.reset 0x70000003D#36 = some (Regs.reset, some 0x00000000000000000000#80) := by decide
/-- V-L20. -/
theorem test_idxof_plus : answer Regs.reset 0x70000002B#36 = some (Regs.reset, some 0x0100000000000000003E#80) := by decide
/-- P5.5. -/
theorem test_dstat :
    answer ⟨.rejected, 12#32, 12#32, .invalidPadding, 0#32, 0#8⟩ 0x800000000#36 =
      some (⟨.rejected, 12#32, 12#32, .invalidPadding, 0#32, 0#8⟩, some 0x3800000000000000000C#80) := by decide
/-- V-X.3, V-X.5, V-X.10, V-X.4 and P2.7: reserved codes. -/
theorem test_reserved :
    [0x900000000#36, 0xA12345678#36, 0xB00000000#36, 0xC54574675#36, 0xD00000000#36, 0xE00000000#36, 0xFFFFFFFFF#36].all
      (fun w => answer (opened 8#32 4#32) w == some (opened 8#32 4#32, some 0x40000000000000000000#80)) = true := by decide
/-- V-X.22: reset in mid-message. -/
theorem test_reset_input :
    (match step { regs := opened 8#32 4#32, pending := [.reset], response := some Response.blank } with
      | .next s => some s
      | .fault _ => none
      | .refused _ => none) = some State.reset := by decide

/-! ### Whole messages and the assembler -/

/-- V-W40: three padding faults, then an invalid character. -/
theorem test_decodeMessage_priority :
    (match decodeMessage [0x3D#8, 0x41#8, 0x41#8, 0x41#8, 0x3D#8, 0x41#8, 0x41#8, 0x41#8, 0x3D#8, 0x41#8, 0x41#8, 0x21#8] with
      | .error e => some e
      | .ok _ => none) = some (.invalidCharacter 11#32 0x21#8) := by decide
/-- V-W11. -/
theorem test_decodeMessage_ok :
    (match decodeMessage [0x54#8, 0x57#8, 0x46#8, 0x75#8, 0x65#8, 0x53#8, 0x41#8, 0x3D#8] with
      | .error _ => none
      | .ok b => some b) = some [0x4D#8, 0x61#8, 0x6E#8, 0x79#8, 0x20#8] := by decide
/-- V-M6. -/
theorem test_encodeMessage :
    encodeMessage [0x66#8, 0x6F#8, 0x6F#8, 0x62#8, 0x61#8] =
      [0x5A#8, 0x6D#8, 0x39#8, 0x76#8, 0x59#8, 0x6D#8, 0x45#8, 0x3D#8] := by decide
/-- The results of the messages that a run opens. -/
def resultsOf (r : Regs) (inputs : List HostInput) : List (Option (Except DecodeError (List Byte))) :=
  messageResults (fullTranscript { regs := r, pending := inputs, response := none })

/-- V-X.6 to V-X.24 without the DSTATs: groups too many after each of three messages, a reserved request inside the first
one and a reset after the last one change no result. -/
theorem test_message_results :
    resultsOf Regs.reset
      [.request 0x400000008#36, .request 0x554574675#36, .request 0xC54574675#36, .request 0x554513D3D#36,
        .request 0x554574675#36, .request 0x400000006#36, .request 0x554574675#36, .request 0x400000008#36,
        .request 0x554572175#36, .request 0x554574675#36, .request 0x554574675#36, .reset, .request 0x554574675#36] =
      [some (.ok [0x4D#8, 0x61#8, 0x6E#8, 0x4D#8]), some (.error .malformedLength),
        some (.error (.invalidCharacter 2#32 0x21#8))] := rfl
/-- Program 4 (P4.1 to P4.6): the bytes of the abandoned message belong to no result. -/
theorem test_abandoned_message_has_no_result :
    resultsOf ⟨.rejected, 7#32, 0#32, .malformedLength, 0#32, 0#8⟩
      [.request 0x554574675#36, .request 0x40000000C#36, .request 0x554574675#36, .request 0x400000004#36,
        .request 0x52F773D3D#36, .request 0x554574675#36] = [none, some (.ok [0xFF#8])] := rfl
/-- P2.5 and V-L2, as text with a comment (R71). -/
theorem test_assembleText :
    assembleText ['I', 'D', 'X', 'O', 'F', ' ', '\'', '=', '\''] = some [0x70000003D#36] ∧
    assembleText ['S', 'Y', 'M', 'A', 'T', ' ', '0', 'x', '1', '3', ' ', ';', ' ', 'T'] = some [0x600000013#36] := by decide

/-! ### The ROMs at the edges of their ranges (R81, R83) -/

theorem test_symbol_rom_edges :
    [0#6, 25#6, 26#6, 51#6, 52#6, 61#6, 62#6, 63#6].map memReadSym =
      [0x41#7, 0x5A#7, 0x61#7, 0x7A#7, 0x30#7, 0x39#7, 0x2B#7, 0x2F#7] := by decide
theorem test_inverse_rom_edges :
    [0x2A#8, 0x2B#8, 0x2C#8, 0x2E#8, 0x2F#8, 0x30#8, 0x39#8, 0x3A#8, 0x3D#8, 0x40#8, 0x41#8, 0x5A#8, 0x5B#8, 0x60#8,
      0x61#8, 0x7A#8, 0x7B#8, 0x80#8, 0xC1#8, 0xFF#8].map (fun c => (memReadInvv c, memReadInv c)) =
    [(0#1, 0#6), (1#1, 62#6), (0#1, 0#6), (0#1, 0#6), (1#1, 63#6), (1#1, 52#6), (1#1, 61#6), (0#1, 0#6), (0#1, 0#6),
      (0#1, 0#6), (1#1, 0#6), (1#1, 25#6), (0#1, 0#6), (0#1, 0#6), (1#1, 26#6), (1#1, 51#6), (0#1, 0#6), (0#1, 0#6),
      (0#1, 0#6), (0#1, 0#6)] := by decide

/-! ### Witnesses: a concrete state and operands that meet the hypotheses of each statement -/

/-- A state with these registers and nothing presented. -/
def stateOf (r : Regs) : State := { regs := r, pending := [], response := none }

/-- Eight characters declared, the first group rejected for its padding. -/
def paddingRejected : Regs := ⟨.rejected, 8#32, 4#32, .invalidPadding, 0#32, 0#8⟩

/-- Eight characters declared, an invalid character found in the first group. -/
def characterRejected : Regs := ⟨.rejected, 8#32, 4#32, .invalidCharacter, 2#32, 0x21#8⟩

theorem opened_inv : (opened 8#32 4#32).Inv where
  settled := .inl rfl
  posAligned := by decide
  errIffRejected := by decide
  goodLength := by decide
  badLength := by decide
  groupExpected := by decide
  allConsumed := by decide
  noStaleDetail := by decide
  indexConsumed := by decide

theorem characterRejected_inv : characterRejected.Inv where
  settled := .inr (.inl rfl)
  posAligned := by decide
  errIffRejected := by decide
  goodLength := by decide
  badLength := by decide
  groupExpected := by decide
  allConsumed := by decide
  noStaleDetail := by decide
  indexConsumed := by decide

theorem witness_ResetInputRestoresTheResetRegisters :
    ({ stateOf paddingRejected with pending := [.reset, .request 0x800000000#36] } : State).pending =
      .reset :: [.request 0x800000000#36] := rfl

theorem witness_ResetAbandonsTheMessage :
    Instr.isStateless (.symat 0#6) = true ∧ Instr.symat 0#6 ≠ .dstat ∧
    (∃ t, exec (.symat 0#6) (stateOf paddingRejected) = .next t) ∧
    ∃ t, exec (.symat 0#6) (resetInput (stateOf paddingRejected)) = .next t :=
  ⟨rfl, by decide, ⟨_, rfl⟩, ⟨_, rfl⟩⟩

theorem witness_StepRunsTheDecodedRequest :
    (presentNext (stateOf Regs.reset) 0x3004D616E#36).pending = .request 0x3004D616E#36 :: [] ∧
    (stateOf Regs.reset).pending = [] ∧ 0xFFFFFFFFF < 2 ^ 36 ∧ 36 ≤ 40 := ⟨rfl, rfl, by decide, by decide⟩

theorem witness_IgnoredPayloadBitsHaveNoEffect :
    (0x00FF0000#32 : Payload) &&& usedPayloadBits 0x1#4 = 0xABFFCDEF#32 &&& usedPayloadBits 0x1#4 ∧
    (0x00FF0000#32 : Payload) ≠ 0xABFFCDEF#32 := by decide

theorem witness_DecodeOfEncodeIsTheOperation : Instr.wf (.dgrp 0xFF#8 0x00#8 0x3D#8 0x80#8) = true := rfl

theorem witness_ResponseWordCarriesItsFields :
    Response.ofWord 0x28000000072100000008#80 = some ⟨.invalidCharacter, true, 0#3, 7#32, 0x21#8, 8#32⟩ ∧
    6 ≤ (BitVec.extractLsb' 76 4 0x60000000000000000000#80).toNat := by decide

theorem witness_SymbolRomHoldsTheAlphabet :
    (25#6).toNat ≤ 25 ∧ 26 ≤ (26#6).toNat ∧ (51#6).toNat ≤ 51 ∧ 52 ≤ (52#6).toNat ∧ (61#6).toNat ≤ 61 ∧
    (62#6).toNat = 62 ∧ (63#6).toNat = 63 := by decide

theorem witness_TablesAreInverse : memReadInvv 0x2F#8 = 1#1 ∧ memReadSym 63#6 = memReadSym 63#6 := by decide

theorem witness_EncoderCharactersAreSevenBit :
    (opcOf (.enc1 0xFF#8)).toNat ≤ 3 ∧
    ∃ t rsp, exec (.enc1 0xFF#8) State.reset = .next t ∧ t.response = some rsp ∧ 0x2F#8 ∈ charLanes rsp.data :=
  ⟨by decide, _, _, rfl, rfl, by decide⟩

theorem witness_EncodedMessagesObeyTheLaws :
    ([0xFF#8] : List Byte).length % 3 = 1 ∧ ([0xFF#8, 0xFF#8] : List Byte).length % 3 = 2 := by decide

theorem witness_DoneBitIsFinalAfterTheTransaction :
    (∃ t, exec (.dstart 5#32) State.reset = .next t) ∧
    (∃ t, exec (.dgrp 0x54#8 0x57#8 0x46#8 0x75#8) (stateOf (opened 8#32 4#32)) = .next t) ∧
    (∃ t, exec .dstat State.reset = .next t) ∧
    characterRejected.decState = .rejected ∧ characterRejected.decErr = .invalidCharacter ∧
    characterRejected.decPos < characterRejected.decLen := ⟨⟨_, rfl⟩, ⟨_, rfl⟩, ⟨_, rfl⟩, rfl, rfl, by decide⟩

theorem witness_DstartOpensAMessage :
    (0xFFFFFFFF#32 : Len).toNat % 4 ≠ 0 ∧ (0xFFFFFFFC#32 : Len).toNat % 4 = 0 ∧ (0xFFFFFFFC#32 : Len) ≠ 0#32 := by decide

theorem witness_UnexpectedGroupIsAProtocolError :
    accepting Regs.reset = false ∧ Regs.reset.decState = .done ∧
    accepting ⟨.rejected, 5#32, 0#32, .malformedLength, 0#32, 0#8⟩ = false ∧
    accepting ⟨.rejected, 8#32, 8#32, .invalidPadding, 0#32, 0#8⟩ = false := by decide

/-- V-DG47 in the last group: `=` in lane 0, an invalid character in lane 2. -/
theorem witness_InvalidCharacterIsReportedAtItsIndex :
    (opened 4#32 0#32).decState = .expectGroup ∧
    (![0x3D#8, 0x57#8, 0x21#8, 0x75#8] (2 : Fin 4) ≠ 0x3D#8 ∧
      memReadInvv (![0x3D#8, 0x57#8, 0x21#8, 0x75#8] (2 : Fin 4)) = 0#1) ∧
    ∀ k : Fin 4, k < 2 → ![0x3D#8, 0x57#8, 0x21#8, 0x75#8] k = 0x3D#8 ∨
      memReadInvv (![0x3D#8, 0x57#8, 0x21#8, 0x75#8] k) = 1#1 := by decide

/-- V-DG60: `"TW=="` is misplaced before the last group, and (V-DG16) `"TW=u"` in it. -/
theorem witness_MisplacedPaddingIsReported :
    (∀ c ∈ [0x54#8, 0x57#8, 0x3D#8, 0x3D#8], c = 0x3D#8 ∨ memReadInvv c = 1#1) ∧
    (opened 8#32 0#32).decPos + 4#32 ≠ (opened 8#32 0#32).decLen ∧
    [0x54#8, 0x57#8, 0x3D#8, 0x3D#8].map (fun c => c == 0x3D#8) ∉ [[false, false, false, false]] ∧
    (opened 4#32 0#32).decPos + 4#32 = (opened 4#32 0#32).decLen ∧
    [0x54#8, 0x57#8, 0x3D#8, 0x75#8].map (fun c => c == 0x3D#8) ∉
      [[false, false, false, false], [false, false, false, true], [false, false, true, true]] := by decide

/-- V-DG14, V-DG15, V-DG17: the three clauses in a last group, and V-DG58 in one that is not. -/
theorem witness_GoodGroupIsDecoded :
    (opened 4#32 0#32).decState = .expectGroup ∧ memReadInvv 0x54#8 = 1#1 ∧ memReadInvv 0x57#8 = 1#1 ∧
    memReadInvv 0x46#8 = 1#1 ∧ memReadInvv 0x75#8 = 1#1 ∧
    ((opened 4#32 0#32).decPos + 4#32 == (opened 4#32 0#32).decLen) = true ∧
    ((opened 8#32 0#32).decPos + 4#32 == (opened 8#32 0#32).decLen) = false := by decide

theorem witness_RejectedMessageAbsorbsItsGroups :
    paddingRejected.decState = .rejected ∧ paddingRejected.decPos < paddingRejected.decLen ∧
    paddingRejected.decErr = .invalidPadding ∧
    (![0x41#8, 0x41#8, 0x41#8, 0x21#8] (3 : Fin 4) ≠ 0x3D#8 ∧ memReadInvv (![0x41#8, 0x41#8, 0x41#8, 0x21#8] (3 : Fin 4)) = 0#1) ∧
    (∀ k : Fin 4, k < 3 → ![0x41#8, 0x41#8, 0x41#8, 0x21#8] k = 0x3D#8 ∨
      memReadInvv (![0x41#8, 0x41#8, 0x41#8, 0x21#8] k) = 1#1) ∧
    (∀ c ∈ [0x3D#8, 0x3D#8, 0x3D#8, 0x41#8], c = 0x3D#8 ∨ memReadInvv c = 1#1) ∧
    characterRejected.decState = .rejected ∧ characterRejected.decPos < characterRejected.decLen ∧
    characterRejected.decErr = .invalidCharacter := by decide

theorem witness_DstatReportsTheDecoder :
    (stateOf characterRejected).Inv ∧
    ∃ t rsp, exec .dstat (stateOf characterRejected) = .next t ∧ t.response = some rsp :=
  ⟨characterRejected_inv, _, _, rfl, rfl⟩

theorem witness_ReservedCodesAreIllegalRequests :
    Instr.reserved9 ∈ [Instr.reserved9, .reservedA, .reservedB, .reservedC, .reservedD, .reservedE, .reservedF] ∧
    9 ≤ (0x9#4 : BitVec 4).toNat ∧ 9 ≤ (0xF#4 : BitVec 4).toNat := by decide

theorem witness_StatelessOperationsWriteNoRegister :
    Instr.isStateless .dstat = true ∧ Instr.isStateless (.enc3 0#8 0#8 0#8) = true := by decide

theorem witness_PositionAndLengthAreWrittenOnlyByTheDecoder :
    (∃ t, exec (.dgrp 0x54#8 0x57#8 0x46#8 0x75#8) (stateOf (opened 8#32 4#32)) = .next t) ∧
    accepting (opened 8#32 4#32) = true ∧ accepting Regs.reset = false ∧
    (∃ t, exec (.dstart 8#32) State.reset = .next t) ∧ Instr.isStateless .enc0 = true :=
  ⟨⟨_, rfl⟩, rfl, rfl, ⟨_, rfl⟩, rfl⟩

theorem witness_ResponseIsAFunctionOfRequestAndRegisters :
    (presentNext State.reset 0#36).regs = State.reset.regs ∧ presentNext State.reset 0#36 ≠ State.reset ∧
    (∃ t, exec .dstat (presentNext State.reset 0#36) = .next t) ∧ ∃ t, exec .dstat State.reset = .next t :=
  ⟨rfl, by decide, ⟨_, rfl⟩, ⟨_, rfl⟩⟩

theorem witness_StepKeepsTheInvariants :
    (presentNext (stateOf (opened 8#32 4#32)) 0x554513D3D#36).Inv ∧
    ∃ t, step (presentNext (stateOf (opened 8#32 4#32)) 0x554513D3D#36) = .next t := ⟨opened_inv, _, rfl⟩

theorem witness_StepKeepsTheRecordedCharacterOffending :
    (presentNext (stateOf characterRejected) 0x554513D3D#36).regs.CharOffends ∧
    ∃ t, step (presentNext (stateOf characterRejected) 0x554513D3D#36) = .next t :=
  ⟨fun _ => by decide, _, rfl⟩

theorem witness_RecordedErrorChangesOnlyUpward :
    (stateOf (opened 8#32 4#32)).Inv ∧
    (∃ t, exec (.dgrp 0x54#8 0x3D#8 0x46#8 0x75#8) (stateOf (opened 8#32 4#32)) = .next t) ∧
    ∃ t, exec (.dstart 5#32) (stateOf (opened 8#32 4#32)) = .next t := ⟨opened_inv, ⟨_, rfl⟩, ⟨_, rfl⟩⟩

theorem witness_PositionNeverWraps : (opened 8#32 4#32).Inv ∧ accepting (opened 8#32 4#32) = true := ⟨opened_inv, rfl⟩

theorem witness_FinalResultIsNeverChanged :
    (stateOf characterRejected).Inv ∧ isFinal (stateOf characterRejected).regs = true ∧
    ∃ t, exec (.dgrp 0x54#8 0x57#8 0x46#8 0x75#8) (stateOf characterRejected) = .next t :=
  ⟨characterRejected_inv, rfl, _, rfl⟩

theorem witness_OnlyDstartLeavesATerminalState :
    paddingRejected.decState = .rejected ∧ Regs.reset.decState = .done ∧ (opened 8#32 4#32).decState = .expectGroup ∧
    (∃ t, exec (.dgrp 0x54#8 0x57#8 0x46#8 0x75#8) (stateOf paddingRejected) = .next t) ∧
    ∃ t, exec (.dgrp 0x54#8 0x57#8 0x46#8 0x75#8) (stateOf (opened 8#32 4#32)) = .next t :=
  ⟨rfl, rfl, rfl, ⟨_, rfl⟩, ⟨_, rfl⟩⟩

/-- Two ROMs that differ at `=`. -/
theorem witness_InvalidEntriesOfTheInverseRomAreNeverUsed :
    (∀ c, memReadInvv c = 1#1 → memReadInv c = if c = 0x3D#8 then 63#6 else memReadInv c) ∧
    memReadInv 0x3D#8 ≠ 63#6 := by
  refine ⟨fun c h => ?_, by decide⟩
  by_cases hc : c = 0x3D#8
  · rw [hc] at h
    exact absurd h (by decide)
  · rw [if_neg hc]

/-- `"A!="`, `"=A!A"` (R148) and `"AA=A"` (V-W24), one for each clause. -/
theorem witness_DecodeErrorsHaveTheirPriority :
    ([0x41#8, 0x21#8, 0x3D#8] : List CharCode).length % 4 ≠ 0 ∧
    (([0x3D#8, 0x41#8, 0x21#8, 0x41#8] : List CharCode)[2]? = some 0x21#8 ∧ memReadInvv 0x21#8 = 0#1 ∧
      memReadInvv 0x41#8 = 1#1) ∧
    ([0x41#8, 0x41#8, 0x3D#8, 0x41#8] : List CharCode)[2]? = some 0x3D#8 ∧
    ¬(2 + 1 = 4 ∨ (2 + 2 = 4 ∧ ([0x41#8, 0x41#8, 0x3D#8, 0x41#8] : List CharCode)[2 + 1]? = some 0x3D#8)) := by decide

theorem witness_OnlyTrailingPaddingIsDecoded :
    ([0x54#8, 0x51#8, 0x3D#8, 0x3D#8] : List CharCode).length % 4 = 0 ∧
    ∀ c ∈ ([0x54#8, 0x51#8, 0x3D#8, 0x3D#8] : List CharCode), c = 0x3D#8 ∨ memReadInvv c = 1#1 := by decide

theorem witness_DecodedLengthLaw :
    0x3D#8 ∉ ([0x54#8, 0x51#8] : List CharCode) ∧
    decodeMessage ([0x54#8, 0x51#8] ++ List.replicate 2 0x3D#8) = .ok [77#8] := ⟨by decide, rfl⟩

/-- `"TQ=="` and `"TR=="`; `"TWE="` and `"TWF="` (V-DG30 to V-DG33). -/
theorem witness_TrailingBitsAreIgnored :
    memReadInvv 0x54#8 = 1#1 ∧ memReadInvv 0x51#8 = 1#1 ∧ memReadInvv 0x52#8 = 1#1 ∧
    (memReadInv 0x51#8).extractLsb' 4 2 = (memReadInv 0x52#8).extractLsb' 4 2 ∧
    memReadInvv 0x57#8 = 1#1 ∧ memReadInvv 0x45#8 = 1#1 ∧ memReadInvv 0x46#8 = 1#1 ∧
    (memReadInv 0x45#8).extractLsb' 2 4 = (memReadInv 0x46#8).extractLsb' 2 4 := by decide

theorem witness_WhiteSpaceAndUrlSafeSymbolsAreRejected :
    ([0x54#8, 0x57#8, 0x2D#8, 0x75#8] : List CharCode).length % 4 = 0 ∧
    0x2D#8 ∈ ([0x54#8, 0x57#8, 0x2D#8, 0x75#8] : List CharCode) ∧
    0x2D#8 ∈ ([0x20#8, 0x09#8, 0x0A#8, 0x0D#8, 0x2D#8, 0x5F#8] : List CharCode) := by decide

theorem witness_EncodedGroupDecodesOnTheMachine :
    (stateOf (opened 4#32 0#32)).regs = ⟨.expectGroup, 4#32, 0#32, .none, 0#32, 0#8⟩ ∧
    ∃ t rsp, exec (.enc1 0xFF#8) (stateOf (opened 4#32 0#32)) = .next t ∧ t.response = some rsp := ⟨rfl, _, _, rfl, rfl⟩

/-- `DECODE "TQ=="` with a SYMAT and a reserved request between its transactions and one group too many after them; and
stopped after the DSTART. -/
theorem witness_DecodeExpansionComputesDecode :
    ([0x54#8, 0x51#8, 0x3D#8, 0x3D#8] : List CharCode).length < 2 ^ 32 ∧
    (∀ w ∈ [0x554513D3D#36], reqOpc w = 0x5#4) ∧
    [0x600000000#36, 0x400000004#36, 0x9FFFFFFFF#36, 0x554513D3D#36, 0x554513D3D#36].filter isMessageRequest =
      (decodeOps [0x54#8, 0x51#8, 0x3D#8, 0x3D#8]).map encode ++ [0x554513D3D#36] ∧
    [0x400000004#36, 0x800000000#36].filter isMessageRequest =
      ((decodeOps [0x54#8, 0x51#8, 0x3D#8, 0x3D#8]).map encode).take 1 :=
  ⟨by decide, fun w hw => List.mem_singleton.1 hw ▸ rfl, rfl, rfl⟩

/-- After `DSTART 4` and one good group no group is accepted. -/
theorem witness_UnacceptedGroupChangesNoMessage :
    (match Sys2Proof.core.run 2 { State.reset with pending := [.request 0x400000004#36, .request 0x554574675#36] } with
      | .next t => accepting t.regs
      | .fault _ => true
      | .refused _ => true) = false := by decide

/-- A run that opens a message still without result (V-DG58's first group) and one with a result. -/
theorem witness_MessageResultIsReadFromAnyFinalResponse :
    (messages (fullTranscript (presentAll State.reset [0x400000008#36, 0x554574675#36, 0x400000000#36]))).map
      (fun m => m.responses.map Response.done) = [[false, false], [true]] := by decide

theorem witness_MessageRoundTripOnTheMachine : (encodeMessage [0xFF#8]).length < 2 ^ 32 := by decide

end Sys2Proof.Tests
end

