-- ==== Sys2Proof/Proofs/Scope.lean ====
section
/-! Proofs of the scope family: a step is one transaction of the port (R16, R47), and the numbers stay inside 32 bits
(R15). -/

namespace Sys2Proof.Machine

/-! ### A step and the request it takes -/

/-- Taking back an input just presented leaves the state as it was. -/
@[simp] theorem takeInput_presentNext (s : State) (w : Request) : takeInput (presentNext s w) s.pending = s := rfl

/-- A table row wide enough for its number holds that number. -/
theorem tableNumber_of_lt {nbits w k : Nat} (hw : w < 2 ^ k) (hk : k ≤ nbits) : tableNumber nbits w = w :=
  Nat.mod_eq_of_lt (hw.trans_le (Nat.pow_le_pow_right Nat.two_pos hk))

/-- A step that takes a request word is the execution of the decoded operation. -/
theorem step_eq_exec {s : State} {w : Request} {rest : List HostInput} (h : s.pending = .request w :: rest) :
    step s = exec (decode w) (takeInput s rest) := by
  rw [step_request h, exec_eq_respond, takeInput_regs]

/-- A step with a request word of a table row presented next executes it on the state before it was presented. -/
theorem step_withFetchWord (s : State) (nbits w : Nat) :
    step (s.withFetchWord nbits w) = exec (decode (BitVec.ofNat 36 (tableNumber nbits w))) s := by
  rw [step_eq_exec (withFetchWord_pending s nbits w), State.withFetchWord, takeInput_presentNext]

/-- Settles O4: the three cases of a step, by `step_eq_exec`, `step_idle` and `step_withFetchWord`. -/
theorem stepRunsTheDecodedRequest : Obligations.StepRunsTheDecodedRequest := by
  refine ⟨fun s w rest h => step_eq_exec h, fun s h => step_idle h, fun s n w hw hn => ?_⟩
  rw [step_withFetchWord, tableNumber_of_lt hw hn]

/-! ### The position where a group is accepted -/

section accepted
variable {r : Regs}

/-- The two states in which a DGRP is accepted (R31). -/
theorem accepting_iff :
    accepting r = true ↔
      r.decState = .expectGroup ∨
        (r.decState = .rejected ∧ r.decErr ≠ .malformedLength ∧ r.decPos < r.decLen) := by
  simp [accepting, and_assoc]

/-- A message that accepts a group has a good length and is not at its end. -/
theorem Regs.Inv.decErr_ne_malformed_and_decPos_lt (hr : r.Inv) (ha : accepting r = true) :
    r.decErr ≠ .malformedLength ∧ r.decPos < r.decLen := by
  rcases accepting_iff.1 ha with hs | ⟨-, he, hlt⟩
  · have hnone : r.decErr = .none := hr.errIffRejected.2 (by simp [hs])
    exact ⟨by simp [hnone], hr.groupExpected hs⟩
  · exact ⟨he, hlt⟩

/-- Below the declared length and with both aligned, a whole group is still to come, and the last one ends below
`2^32`. -/
theorem Regs.Inv.decPos_add_four_le (hr : r.Inv) (ha : accepting r = true) :
    r.decPos.toNat + 4 ≤ r.decLen.toNat ∧ r.decLen.toNat ≤ 2 ^ 32 - 4 := by
  obtain ⟨he, hlt⟩ := hr.decErr_ne_malformed_and_decPos_lt ha
  obtain ⟨hlen, -⟩ := hr.goodLength he
  have hpos := hr.posAligned
  have hlt : r.decPos.toNat < r.decLen.toNat := hlt
  have hmax := r.decLen.isLt
  omega

/-- A number of characters up to one group is added to the position without wrapping. -/
theorem Regs.Inv.toNat_decPos_add (hr : r.Inv) (ha : accepting r = true) {n : Nat} (hn : n ≤ 4) :
    (r.decPos + BitVec.ofNat 32 n).toNat = r.decPos.toNat + n := by
  obtain ⟨hle, hmax⟩ := hr.decPos_add_four_le ha
  have hnat : (BitVec.ofNat 32 n).toNat = n := Nat.mod_eq_of_lt (by omega)
  rw [BitVec.toNat_add_of_lt (by omega), hnat]

end accepted

/-- Settles O44: four characters fit before the declared length, which is at most `2^32 - 4`. -/
theorem positionNeverWraps : Obligations.PositionNeverWraps := by
  intro r hr ha
  obtain ⟨hle, hmax⟩ := hr.decPos_add_four_le ha
  exact ⟨hr.toNat_decPos_add ha le_rfl, hle.trans hmax, fun j => hr.toNat_decPos_add ha j.isLt.le⟩

end Sys2Proof.Machine
end

