-- ==== Sys2Proof/Proofs/State.lean ====
section
/-! Proofs of the state family: what each operation writes into the registers (R23 to R31), and the invariants that
every step keeps (R27, R29, R30). -/

namespace Sys2Proof.Machine

/-! ### What an operation answers -/

/-- The next state of an operation is its transaction's registers and response (R47). -/
theorem exec_eq_next_iff {i : Instr} {s t : State} :
    exec i s = .next t ↔ t = respond s (transactionOf i s.regs) := by
  rw [exec_eq_respond, Host.Outcome.next.injEq, eq_comm]

/-- An operation of R49's list leaves the registers as they are. -/
theorem transactionOf_regs_of_isStateless {i : Instr} (h : i.isStateless = true) (r : Regs) :
    (transactionOf i r).1 = r := by
  cases i with
  | dstart len => cases h
  | dgrp c0 c1 c2 c3 => cases h
  | _ => rfl

/-- Settles O36: `transactionOf_regs_of_isStateless`, put into the state. -/
theorem statelessOperationsWriteNoRegister : Obligations.StatelessOperationsWriteNoRegister := by
  intro i s h
  refine ⟨(transactionOf i s.regs).2, exec_eq_next_iff.2 ?_⟩
  rw [respond, transactionOf_regs_of_isStateless h]

/-! ### DSTART -/

section start
variable (len : Len) (r : Regs)

@[simp] theorem startMessage_decPos : (startMessage len r).decPos = 0#32 := by
  rcases startMessage_cases len r with ⟨-, e⟩ | ⟨rfl, e⟩ | ⟨-, -, e⟩ <;> rw [e]

@[simp] theorem startMessage_decLen : (startMessage len r).decLen = len := by
  rcases startMessage_cases len r with ⟨-, e⟩ | ⟨rfl, e⟩ | ⟨-, -, e⟩ <;> rw [e]

/-- A fresh message has no error but that of its length (R27). -/
theorem startMessage_decErr :
    (startMessage len r).decErr = .none ∨ (startMessage len r).decErr = .malformedLength := by
  rcases startMessage_cases len r with ⟨-, e⟩ | ⟨rfl, e⟩ | ⟨-, -, e⟩
  · exact .inr (by rw [e])
  · exact .inl (by rw [e])
  · exact .inl (by rw [e])

/-- The empty message leaves the reset registers (R34). -/
theorem startMessage_zero : startMessage 0#32 r = Regs.reset := rfl

/-- The low two bits of a length are its remainder by 4. -/
theorem lowBits_eq_zero_iff : len.extractLsb' 0 2 = 0b00#2 ↔ len.toNat % 4 = 0 := by
  rw [← BitVec.toNat_inj, BitVec.extractLsb'_toNat, Nat.shiftRight_zero]
  rfl

end start

/-- Settles O1: after reset by computation, after DSTART by `startMessage_zero`. -/
theorem resetIsTheStateOfTheEmptyMessage : Obligations.ResetIsTheStateOfTheEmptyMessage :=
  ⟨rfl, rfl, rfl, rfl, rfl, fun s => ⟨_, exec_eq_respond _ s, startMessage_zero s.regs⟩⟩

/-! ### DGRP -/

/-- The registers before the position is advanced, and the bytes, that an accepted group can give (R118, R119). -/
inductive GroupHandled (r : Regs) : Regs × Emitted → Prop
  /-- An offending character, recorded where no error or a padding error was. -/
  | offending (j : Fin 4) (c : CharCode) (hc : isOffending c = true)
      (hs : r.decState = .expectGroup ∨ (r.decState = .rejected ∧ r.decErr = .invalidPadding)) :
      GroupHandled r (raise (.invalidCharacter (r.decPos + BitVec.ofNat 32 j.val) c) r, emitNone)
  /-- A pattern of `=` that may not stand in the group. -/
  | misplacedPad (hs : r.decState = .expectGroup) : GroupHandled r (raise .invalidPadding r, emitNone)
  /-- A good group that ends the message. -/
  | decodedLast (e : Emitted) (hs : r.decState = .expectGroup) (hl : isLastGroup r = true) :
      GroupHandled r ({ r with decState := .done }, e)
  /-- A good group with more to come. -/
  | decoded (e : Emitted) (hs : r.decState = .expectGroup) (hl : isLastGroup r = false) : GroupHandled r (r, e)
  /-- A group of a rejected message that changes nothing but the position. -/
  | absorbed (hs : r.decState = .rejected) : GroupHandled r (r, emitNone)

section group
variable {c0 c1 c2 c3 : CharCode} {r : Regs} {t : Regs × Emitted}

theorem decodeGroup_handled (hs : r.decState = .expectGroup) : GroupHandled r (decodeGroup c0 c1 c2 c3 r) := by
  rcases decodeGroup_cases c0 c1 c2 c3 r with ⟨j, c, hf, e⟩ | ⟨-, -, e⟩ | ⟨p, -, -, e⟩
  · rw [e]
    exact .offending j c (isOffending_of_firstOffending hf) (.inl hs)
  · rw [e]
    exact .misplacedPad hs
  · rw [e]
    cases hl : isLastGroup r with
    | true => exact .decodedLast _ hs hl
    | false => exact .decoded _ hs hl

theorem absorbGroup_handled (hs : r.decState = .rejected) : GroupHandled r (absorbGroup c0 c1 c2 c3 r) := by
  rcases absorbGroup_cases c0 c1 c2 c3 r with ⟨j, c, he, hf, e⟩ | ⟨-, e⟩
  · rw [e]
    exact .offending j c (isOffending_of_firstOffending hf) (.inr ⟨hs, he⟩)
  · rw [e]
    exact .absorbed hs

/-- A DGRP is refused and writes nothing, or is handled and then ended in the common way (R117, R120). -/
theorem groupTransaction_handled (c0 c1 c2 c3 : CharCode) (r : Regs) :
    (accepting r = false ∧ groupTransaction c0 c1 c2 c3 r = (r, decoderResponse r .protocol 0#3 0#32)) ∨
    (accepting r = true ∧ ∃ t, GroupHandled r t ∧ groupTransaction c0 c1 c2 c3 r = finishGroup t) := by
  rcases groupTransaction_cases c0 c1 c2 c3 r with hrefused | ⟨ha, hs, e⟩ | ⟨ha, hs, -, -, e⟩
  · exact .inl hrefused
  · exact .inr ⟨ha, _, decodeGroup_handled hs, e⟩
  · exact .inr ⟨ha, _, absorbGroup_handled hs, e⟩

theorem GroupHandled.decLen_eq (h : GroupHandled r t) : t.1.decLen = r.decLen := by
  cases h with
  | offending => exact raise_decLen ..
  | misplacedPad => exact raise_decLen ..
  | _ => rfl

theorem GroupHandled.decPos_eq (h : GroupHandled r t) : t.1.decPos = r.decPos := by
  cases h with
  | offending => exact raise_decPos ..
  | misplacedPad => exact raise_decPos ..
  | _ => rfl

/-- In a message rejected for a character nothing further is recorded or emitted (R119). -/
theorem GroupHandled.eq_of_invalidCharacter (h : GroupHandled r t) (hs : r.decState = .rejected)
    (he : r.decErr = .invalidCharacter) : t = (r, emitNone) := by
  cases h with
  | offending j c hc hs' => simp [hs, he] at hs'
  | absorbed => rfl
  | misplacedPad hs' => simp [hs] at hs'
  | decodedLast e hs' => simp [hs] at hs'
  | decoded e hs' => simp [hs] at hs'

theorem groupTransaction_decLen : (groupTransaction c0 c1 c2 c3 r).1.decLen = r.decLen := by
  rcases groupTransaction_handled c0 c1 c2 c3 r with ⟨-, e⟩ | ⟨-, t, ht, e⟩
  · rw [e]
  · rw [e, finishGroup_decLen, ht.decLen_eq]

theorem groupTransaction_decPos_of_accepting (ha : accepting r = true) :
    (groupTransaction c0 c1 c2 c3 r).1.decPos = r.decPos + 4#32 := by
  rcases groupTransaction_handled c0 c1 c2 c3 r with ⟨hr, -⟩ | ⟨-, t, ht, e⟩
  · simp [ha] at hr
  · rw [e, finishGroup_decPos, ht.decPos_eq]

theorem groupTransaction_of_not_accepting (ha : accepting r = false) :
    groupTransaction c0 c1 c2 c3 r = (r, decoderResponse r .protocol 0#3 0#32) := by
  rcases groupTransaction_handled c0 c1 c2 c3 r with ⟨-, e⟩ | ⟨hr, -⟩
  · exact e
  · simp [ha] at hr

end group

/-- Settles O37: the frame of each operation, from the lemmas about `startMessage`, `groupTransaction` and the stateless
operations. -/
theorem positionAndLengthAreWrittenOnlyByTheDecoder : Obligations.PositionAndLengthAreWrittenOnlyByTheDecoder := by
  refine ⟨fun i s t h => ?_, fun s => ⟨rfl, rfl⟩⟩
  obtain rfl := exec_eq_next_iff.1 h
  refine ⟨rfl, ?_, ?_, fun hi => ?_⟩
  · rintro len rfl
    exact ⟨startMessage_decPos len s.regs, startMessage_decLen len s.regs⟩
  · rintro c0 c1 c2 c3 rfl
    exact ⟨groupTransaction_decLen, groupTransaction_decPos_of_accepting,
      fun ha => congrArg Prod.fst (groupTransaction_of_not_accepting ha)⟩
  · simp [transactionOf_regs_of_isStateless hi]

/-! ### The predicates `accepting` and `final` -/

section predicates
variable {r : Regs}

/-- The two states whose result is final (R31). -/
theorem isFinal_iff :
    isFinal r = true ↔
      r.decState = .done ∨
        (r.decState = .rejected ∧
          (r.decErr = .malformedLength ∨ r.decErr = .invalidCharacter ∨ r.decPos = r.decLen)) := by
  simp [isFinal, or_assoc]

/-- Both predicates hold only where a character error is recorded with groups left. -/
theorem rejected_invalidCharacter_of_accepting_isFinal (ha : accepting r = true) (hf : isFinal r = true) :
    r.decState = .rejected ∧ r.decErr = .invalidCharacter := by
  rcases accepting_iff.1 ha with hs | ⟨hs, he, hlt⟩
  · simp [isFinal_iff, hs] at hf
  · simpa [isFinal_iff, hs, he, BitVec.ne_of_lt hlt] using hf

/-- The `done` bit of the common ending is `final` of the registers it leaves. -/
@[simp] theorem finishGroup_done (t : Regs × Emitted) : (finishGroup t).2.done = isFinal (finishGroup t).1 := rfl

theorem groupTransaction_done (c0 c1 c2 c3 : CharCode) (r : Regs) :
    (groupTransaction c0 c1 c2 c3 r).2.done = isFinal (groupTransaction c0 c1 c2 c3 r).1 := by
  rcases groupTransaction_handled c0 c1 c2 c3 r with ⟨-, e⟩ | ⟨-, t, -, e⟩
  · rw [e, decoderResponse_done]
  · rw [e, finishGroup_done]

end predicates

/-- Settles O27: the predicates by `accepting_iff` and `isFinal_iff`, the `done` bit by `groupTransaction_done`. -/
theorem doneBitIsFinalAfterTheTransaction : Obligations.DoneBitIsFinalAfterTheTransaction := by
  refine ⟨fun r => accepting_iff, fun r => isFinal_iff, fun r hs he hlt => ⟨?_, ?_⟩, fun i s t hi h => ?_⟩
  · exact accepting_iff.2 (.inr ⟨hs, by simp [he], hlt⟩)
  · exact isFinal_iff.2 (.inr ⟨hs, .inr (.inl he)⟩)
  · obtain rfl := exec_eq_next_iff.1 h
    refine ⟨_, rfl, ?_⟩
    rcases hi with ⟨len, rfl⟩ | ⟨c0, c1, c2, c3, rfl⟩ | rfl
    · rfl
    · exact groupTransaction_done c0 c1 c2 c3 s.regs
    · rfl

/-- Settles O45: a final result still accepts groups only in a message rejected for a character, where a group moves
nothing but the position. -/
theorem finalResultIsNeverChanged : Obligations.FinalResultIsNeverChanged := by
  intro c0 c1 c2 c3 s t _ hf h
  obtain rfl := exec_eq_next_iff.1 h
  simp only [transactionOf, respond_regs, respond_response]
  rcases groupTransaction_handled c0 c1 c2 c3 s.regs with ⟨-, e⟩ | ⟨ha, u, hu, e⟩
  · rw [e]
    exact ⟨rfl, rfl, rfl, rfl, hf, _, rfl, rfl, rfl⟩
  · obtain ⟨hs, he⟩ := rejected_invalidCharacter_of_accepting_isFinal ha hf
    rw [e, hu.eq_of_invalidCharacter hs he]
    exact ⟨rfl, rfl, rfl, rfl, isFinal_iff.2 (.inr ⟨hs, .inr (.inl he)⟩), _, rfl, rfl, rfl⟩

/-! ### What keeps a property of the registers -/

/-- Everything an operation can do to the registers: DSTART opens a message, and any other operation leaves them
alone or ends an accepted group. -/
theorem transactionOf_regs_cases (i : Instr) (r : Regs) :
    (∃ len, i = .dstart len ∧ (transactionOf i r).1 = startMessage len r) ∨
    ((¬∃ len, i = .dstart len) ∧
      ((transactionOf i r).1 = r ∨
        (accepting r = true ∧ ∃ t, GroupHandled r t ∧ (transactionOf i r).1 = (finishGroup t).1))) := by
  cases i with
  | dstart len => exact .inl ⟨len, rfl, rfl⟩
  | dgrp c0 c1 c2 c3 =>
    refine .inr ⟨by simp, ?_⟩
    rcases groupTransaction_handled c0 c1 c2 c3 r with ⟨-, e⟩ | ⟨ha, t, ht, e⟩
    · exact .inl (congrArg Prod.fst e)
    · exact .inr ⟨ha, t, ht, congrArg Prod.fst e⟩
  | _ => exact .inr ⟨by simp, .inl rfl⟩

/-- A property that every fresh message has and every accepted group keeps is kept by every step; reset is the empty
message. -/
theorem step_keeps {P : Regs → Prop} (hstart : ∀ len r, P (startMessage len r))
    (hgroup : ∀ r t, P r → accepting r = true → GroupHandled r t → P (finishGroup t).1)
    {s s' : State} (hs : P s.regs) (h : step s = .next s') : P s'.regs := by
  rcases step_cases h with ⟨-, rfl⟩ | ⟨rest, -, rfl⟩ | ⟨w, rest, -, rfl⟩
  · exact hs
  · exact hstart 0#32 s.regs
  · rw [respond_regs]
    rcases transactionOf_regs_cases (decode w) s.regs with ⟨len, -, e⟩ | ⟨-, e | ⟨ha, t, ht, e⟩⟩
    · exact e ▸ hstart len s.regs
    · exact e.symm ▸ hs
    · exact e ▸ hgroup s.regs t hs ha ht

/-! ### The recorded character -/

theorem startMessage_charOffends (len : Len) (r : Regs) : (startMessage len r).CharOffends := by
  intro he
  rcases startMessage_decErr len r with h | h <;> simp [h] at he

/-- The only character a group records is the offending one it found (R142). -/
theorem GroupHandled.charOffends {r : Regs} {t : Regs × Emitted} (hr : r.CharOffends) (h : GroupHandled r t) :
    (finishGroup t).1.CharOffends := by
  cases h with
  | offending j c hc => exact fun _ => hc
  | misplacedPad => exact fun he => by simp at he
  | _ => exact hr

/-- Settles O42: DSTART and reset record no character, and a group records an offending one. -/
theorem stepKeepsTheRecordedCharacterOffending : Obligations.StepKeepsTheRecordedCharacterOffending := by
  intro s t hs h
  exact step_keeps startMessage_charOffends (fun _ _ hr _ ht => ht.charOffends hr) hs h

/-! ### The recorded error -/

/-- No error is recorded while a group is expected (R30). -/
theorem Regs.Inv.decErr_eq_none_of_expectGroup {r : Regs} (hr : r.Inv) (hs : r.decState = .expectGroup) :
    r.decErr = .none :=
  hr.errIffRejected.2 (by simp [hs])

/-- What a group does to the recorded error (R27). -/
theorem GroupHandled.decErr_cases {r : Regs} {t : Regs × Emitted} (hr : r.Inv) (h : GroupHandled r t) :
    t.1.decErr = r.decErr ∨
    (r.decErr = .none ∧ (t.1.decErr = .invalidCharacter ∨ t.1.decErr = .invalidPadding)) ∨
    (r.decErr = .invalidPadding ∧ t.1.decErr = .invalidCharacter) := by
  cases h with
  | offending j c hc hs =>
    rcases hs with hs | ⟨-, he⟩
    · exact .inr (.inl ⟨hr.decErr_eq_none_of_expectGroup hs, .inl rfl⟩)
    · exact .inr (.inr ⟨he, rfl⟩)
  | misplacedPad hs => exact .inr (.inl ⟨hr.decErr_eq_none_of_expectGroup hs, .inr rfl⟩)
  | _ => exact .inl rfl

/-- Settles O43: `startMessage_decErr` for DSTART, `GroupHandled.decErr_cases` for an accepted group, and no other
operation writes the error. -/
theorem recordedErrorChangesOnlyUpward : Obligations.RecordedErrorChangesOnlyUpward := by
  refine ⟨⟨rfl, rfl, rfl, rfl, fun e => by cases e <;> rfl⟩, fun i s t hs h => ?_, fun s hs => hs.errIffRejected,
    fun s => rfl⟩
  obtain rfl := exec_eq_next_iff.1 h
  rw [respond_regs]
  rcases transactionOf_regs_cases i s.regs with ⟨len, hi, e⟩ | ⟨hi, e | ⟨-, u, hu, e⟩⟩
  · exact .inl ⟨⟨len, hi⟩, e ▸ startMessage_decErr len s.regs⟩
  · exact .inr ⟨hi, .inl (by rw [e])⟩
  · rw [e, finishGroup_decErr]
    exact .inr ⟨hi, hu.decErr_cases hs⟩

/-! ### The invariants I1 to I8 -/

/-- A fresh message satisfies the invariants, whatever the registers before it (R30, R116). -/
theorem startMessage_inv (len : Len) (r : Regs) : (startMessage len r).Inv := by
  rcases startMessage_cases len r with ⟨hlow, e⟩ | ⟨rfl, e⟩ | ⟨hlow, hne, e⟩
  · rw [Ne, lowBits_eq_zero_iff] at hlow
    rw [e]
    constructor <;> simp [hlow]
  · rw [e]
    constructor <;> simp
  · rw [lowBits_eq_zero_iff] at hlow
    rw [e]
    constructor <;> simp [hlow, BitVec.le_def, BitVec.pos_iff_ne_zero, hne]

section kept
variable {r : Regs} {t : Regs × Emitted}

/-- The position after an accepted group is aligned and within the declared length, which is a good one. -/
theorem Regs.Inv.advanced_aligned_and_le (hr : r.Inv) (ha : accepting r = true) :
    (r.decPos + 4#32).toNat % 4 = 0 ∧ r.decLen.toNat % 4 = 0 ∧ r.decPos + 4#32 ≤ r.decLen := by
  obtain ⟨hle, -⟩ := hr.decPos_add_four_le ha
  have hadd := hr.toNat_decPos_add ha (n := 4) le_rfl
  have hpos := hr.posAligned
  obtain ⟨he, -⟩ := hr.decErr_ne_malformed_and_decPos_lt ha
  refine ⟨by omega, (hr.goodLength he).1, ?_⟩
  rw [BitVec.le_def]
  omega

/-- A character of the group just taken has its index below the new position. -/
theorem Regs.Inv.index_lt_advanced (hr : r.Inv) (ha : accepting r = true) {n : Nat} (hn : n < 4) :
    r.decPos + BitVec.ofNat 32 n < r.decPos + 4#32 := by
  rw [BitVec.lt_def, hr.toNat_decPos_add ha hn.le, hr.toNat_decPos_add ha le_rfl]
  omega

/-- An accepted group keeps the invariants (R30, R118 to R120). -/
theorem GroupHandled.inv (hr : r.Inv) (ha : accepting r = true) (h : GroupHandled r t) : (finishGroup t).1.Inv := by
  obtain ⟨hpos, hlen, hle⟩ := hr.advanced_aligned_and_le ha
  obtain ⟨hgood, -⟩ := hr.decErr_ne_malformed_and_decPos_lt ha
  cases h with
  | offending j c hc hs => exact {
      settled := .inr (.inl rfl)
      posAligned := hpos
      errIffRejected := by simp
      goodLength := fun _ => ⟨hlen, hle⟩
      badLength := by simp
      groupExpected := by simp
      allConsumed := by simp
      noStaleDetail := by simp
      indexConsumed := fun _ => hr.index_lt_advanced ha j.isLt }
  | misplacedPad hs =>
    have hnone := hr.decErr_eq_none_of_expectGroup hs
    exact {
      settled := .inr (.inl rfl)
      posAligned := hpos
      errIffRejected := by simp
      goodLength := fun _ => ⟨hlen, hle⟩
      badLength := by simp
      groupExpected := by simp
      allConsumed := by simp
      noStaleDetail := fun _ => hr.noStaleDetail (by simp [hnone])
      indexConsumed := by simp }
  | decodedLast e hs hl =>
    have hnone := hr.decErr_eq_none_of_expectGroup hs
    exact {
      settled := .inr (.inr rfl)
      posAligned := hpos
      errIffRejected := by simp [hnone]
      goodLength := fun _ => ⟨hlen, hle⟩
      badLength := by simp [hnone]
      groupExpected := by simp
      allConsumed := fun _ => by simpa [isLastGroup] using hl
      noStaleDetail := hr.noStaleDetail
      indexConsumed := by simp [hnone] }
  | decoded e hs hl =>
    have hnone := hr.decErr_eq_none_of_expectGroup hs
    have hne : r.decPos + 4#32 ≠ r.decLen := by simpa [isLastGroup] using hl
    exact {
      settled := hr.settled
      posAligned := hpos
      errIffRejected := hr.errIffRejected
      goodLength := fun _ => ⟨hlen, hle⟩
      badLength := by simp [hnone]
      groupExpected := fun _ => BitVec.lt_of_le_ne hle hne
      allConsumed := by simp [hs]
      noStaleDetail := hr.noStaleDetail
      indexConsumed := by simp [hnone] }
  | absorbed hs => exact {
      settled := hr.settled
      posAligned := hpos
      errIffRejected := hr.errIffRejected
      goodLength := fun _ => ⟨hlen, hle⟩
      badLength := by simp [hgood]
      groupExpected := by simp [hs]
      allConsumed := by simp [hs]
      noStaleDetail := hr.noStaleDetail
      indexConsumed := fun he => BitVec.lt_trans (hr.indexConsumed he)
        (by simpa using hr.index_lt_advanced ha (n := 0) (by omega)) }

end kept

/-- Settles O40: the reset registers are those of the empty message. -/
theorem invariantsHoldAtReset : Obligations.InvariantsHoldAtReset := startMessage_inv 0#32 Regs.reset

/-- Settles O41: DSTART and reset give the invariants and an accepted group keeps them. -/
theorem stepKeepsTheInvariants : Obligations.StepKeepsTheInvariants := by
  intro s t hs h
  exact step_keeps startMessage_inv (fun _ _ hr ha ht => ht.inv hr ha) hs h

end Sys2Proof.Machine
end

