-- ==== Sys2Proof/Proofs/Memory.lean ====
section
/-! Proofs of the memory family: what no operation of a message can observe, which is the transactions that stand
between its own (R49) and the inverse ROM at a code that is not valid (R53, R127). -/

namespace Sys2Proof.Machine

/-! ### Requests that belong to no decode message -/

/-- Four bits put together again, most significant first as `decode` reads them. -/
theorem ofBool_append_getLsbD : ∀ opc : BitVec 4, BitVec.ofBool (opc.getLsbD 3) ++ BitVec.ofBool (opc.getLsbD 2) ++
    BitVec.ofBool (opc.getLsbD 1) ++ BitVec.ofBool (opc.getLsbD 0) = opc := by
  decide

/-- Decoding keeps the operation code (R68, R69). -/
@[simp] theorem opcOf_decode (w : Request) : opcOf (decode w) = reqOpc w := by
  rw [← ofBool_append_getLsbD (reqOpc w)]
  simp only [decode]
  split <;> simp only [*] <;> rfl

/-- The stateless operations are all but DSTART and DGRP (R49). -/
theorem isStateless_eq_not_opcOf (i : Instr) : i.isStateless = !(opcOf i == 0x4#4 || opcOf i == 0x5#4) := by
  cases i <;> rfl

theorem isStateless_decode (w : Request) : (decode w).isStateless = !isMessageRequest w := by
  rw [isStateless_eq_not_opcOf, opcOf_decode]
  rfl

/-- A request that belongs to no decode message leaves the registers as they are. -/
theorem transactionOf_decode_regs {w : Request} (hw : isMessageRequest w = false) (r : Regs) :
    (transactionOf (decode w) r).1 = r :=
  transactionOf_regs_of_isStateless (by rw [isStateless_decode, hw]; rfl) r

/-! ### Runs without those requests -/

/-- The inputs that take part in decode messages: DSTART, DGRP, and reset, which ends a message (R122). -/
def HostInput.concernsMessages : HostInput → Bool
  | .request w => isMessageRequest w
  | .reset => true

/-- The events of those inputs. -/
def PortEvent.concernsMessages (e : PortEvent) : Bool := e.input.concernsMessages

@[simp] theorem HostInput.concernsMessages_request (w : Request) :
    (HostInput.request w).concernsMessages = isMessageRequest w := rfl
@[simp] theorem HostInput.concernsMessages_reset : HostInput.reset.concernsMessages = true := rfl
@[simp] theorem PortEvent.concernsMessages_answered (w : Request) (rsp : Response) :
    (PortEvent.answered w rsp).concernsMessages = isMessageRequest w := rfl
@[simp] theorem PortEvent.concernsMessages_reset : PortEvent.reset.concernsMessages = true := rfl

/-- Leaving the other inputs out of a run leaves their events out of its transcript and changes no other event. -/
theorem eventsOf_filter (r : Regs) (xs : List HostInput) :
    eventsOf r (xs.filter HostInput.concernsMessages) = (eventsOf r xs).filter PortEvent.concernsMessages := by
  induction xs generalizing r with
  | nil => rfl
  | cons x xs ih =>
    cases x with
    | reset =>
      rw [List.filter_cons_of_pos HostInput.concernsMessages_reset, eventsOf, eventsOf, ih,
        List.filter_cons_of_pos PortEvent.concernsMessages_reset]
    | request w =>
      cases hw : isMessageRequest w with
      | true => simp [eventsOf, hw, ih]
      | false => simp [eventsOf, hw, ih, transactionOf_decode_regs hw]

/-- The same for a list of request words. -/
theorem fullTranscript_presentAll_filter (s : State) (ws : List Request) :
    fullTranscript (presentAll s (ws.filter isMessageRequest)) =
      (fullTranscript (presentAll s ws)).filter PortEvent.concernsMessages := by
  have hws : (ws.filter isMessageRequest).map HostInput.request =
      (ws.map HostInput.request).filter HostInput.concernsMessages :=
    (List.filter_map (p := HostInput.concernsMessages)).symm
  rw [fullTranscript_eq, fullTranscript_eq, presentAll_regs, presentAll_regs, presentAll_pending, presentAll_pending,
    hws, eventsOf_filter]

theorem decoderResponses_filter (tr : List PortEvent) :
    decoderResponses (tr.filter PortEvent.concernsMessages) = decoderResponses tr := by
  rw [decoderResponses, List.filter_filter, decoderResponses]
  congr 2
  funext e
  cases e <;> simp

/-- An event of any other input takes no part in the cut into messages. -/
theorem prependEvent_of_not_concernsMessages {e : PortEvent} (he : e.concernsMessages = false)
    (cut : List Response × List DecodeMessage) : prependEvent e cut = cut := by
  cases e with
  | reset => cases he
  | answered w rsp =>
    obtain ⟨hstart, hgrp⟩ : isDstart w = false ∧ isDgrp w = false := Bool.or_eq_false_iff.1 he
    simp [prependEvent, isAcceptedGroup, hstart, hgrp]

theorem splitMessages_filter (tr : List PortEvent) :
    splitMessages (tr.filter PortEvent.concernsMessages) = splitMessages tr := by
  induction tr with
  | nil => rfl
  | cons e tr ih =>
    cases he : e.concernsMessages with
    | true => rw [List.filter_cons_of_pos he, splitMessages_cons, splitMessages_cons, ih]
    | false =>
      rw [List.filter_cons_of_neg (by simp [he]), splitMessages_cons, prependEvent_of_not_concernsMessages he, ih]

/-- Settles O39: without the unrelated requests the transcript is the same but for their events, and neither the
responses nor the cut reads those. -/
theorem unrelatedTransactionsDoNotDisturbAMessage : Obligations.UnrelatedTransactionsDoNotDisturbAMessage := by
  intro s ws
  rw [fullTranscript_presentAll_filter]
  exact ⟨(decoderResponses_filter _).symm, (splitMessages_filter _).symm⟩

/-! ### The codes at which the inverse ROM is read -/

theorem isValid_iff (c : CharCode) : isValid c = true ↔ memReadInvv c = 1#1 := beq_iff_eq

/-- A character that is neither offending nor `=` is in the alphabet. -/
theorem memReadInvv_of_not_isOffending {c : CharCode} (ho : isOffending c = false) (hp : isPad c = false) :
    memReadInvv c = 1#1 := by
  simpa [isOffending, hp, isValid_iff] using ho

/-- Under an allowed pattern the lanes that are not counted as padding hold no `=` (R113). -/
theorem isPad_eq_false_of_padCount {c0 c1 c2 c3 : CharCode} {last : Bool} {p : Fin 3}
    (h : padCount c0 c1 c2 c3 last = some p) :
    isPad c0 = false ∧ isPad c1 = false ∧ (p ≤ 1 → isPad c2 = false) ∧ (p = 0 → isPad c3 = false) := by
  unfold padCount at h
  split at h
  next h0 h1 h2 h3 => exact ⟨h0, h1, fun _ => h2, fun _ => h3⟩
  next h0 h1 h2 _ =>
    obtain ⟨-, rfl⟩ : last = true ∧ 1 = p := by simpa using h
    exact ⟨h0, h1, fun _ => h2, by simp⟩
  next h0 h1 _ _ =>
    obtain ⟨-, rfl⟩ : last = true ∧ 2 = p := by simpa using h
    exact ⟨h0, h1, by simp, by simp⟩
  next => cases h

/-- `pack` reads the ROM at the lanes that are not padding only (R53). -/
theorem packVia_congr {inv inv' : CharCode → Index} {c0 c1 c2 c3 : CharCode} {p : Fin 3} (h0 : inv c0 = inv' c0)
    (h1 : inv c1 = inv' c1) (h2 : p ≤ 1 → inv c2 = inv' c2) (h3 : p = 0 → inv c3 = inv' c3) :
    packVia inv c0 c1 c2 c3 p = packVia inv' c0 c1 c2 c3 p := by
  have idx2 : (if p ≤ 1 then inv c2 else 0#6) = if p ≤ 1 then inv' c2 else 0#6 := ite_congr rfl h2 fun _ => rfl
  have idx3 : (if p = 0 then inv c3 else 0#6) = if p = 0 then inv' c3 else 0#6 := ite_congr rfl h3 fun _ => rfl
  rw [packVia, h0, h1, idx2, idx3, packVia]

/-- Settles O47: where `dec_group` packs, no lane offends and the lanes read hold no `=`, so that all of them are
valid. -/
theorem invalidEntriesOfTheInverseRomAreNeverUsed : Obligations.InvalidEntriesOfTheInverseRomAreNeverUsed := by
  intro rom rom' agree c0 c1 c2 c3 last
  have read {c : CharCode} (ho : isOffending c = false) (hp : isPad c = false) : rom c = rom' c :=
    agree c (memReadInvv_of_not_isOffending ho hp)
  unfold decGroupVia
  cases hf : firstOffending c0 c1 c2 c3 with
  | some jc => rfl
  | none =>
    obtain ⟨o0, o1, o2, o3⟩ := firstOffending_eq_none.1 hf
    cases hp : padCount c0 c1 c2 c3 last with
    | none => rfl
    | some p =>
      obtain ⟨p0, p1, p2, p3⟩ := isPad_eq_false_of_padCount hp
      exact congrArg (emitBytes p)
        (packVia_congr (read o0 p0) (read o1 p1) (fun h => read o2 (p2 h)) (fun h => read o3 (p3 h)))

end Sys2Proof.Machine
end

