-- ==== Sys2Proof/Proofs/Encoding.lean ====
section
/-! Proofs of the encoding family: request words and their operations (R60, R61, R68 to R71), the response word (R62),
and what the encoder and the reserved codes answer (R64, R65, R69, R72). -/

namespace Sys2Proof

/-! ### The row that an operation code selects -/

/-- The sixteen operation codes (R68, R69), for a case split. -/
theorem opc_cases : ∀ opc : BitVec 4,
    opc = 0x0#4 ∨ opc = 0x1#4 ∨ opc = 0x2#4 ∨ opc = 0x3#4 ∨ opc = 0x4#4 ∨ opc = 0x5#4 ∨ opc = 0x6#4 ∨ opc = 0x7#4 ∨
    opc = 0x8#4 ∨ opc = 0x9#4 ∨ opc = 0xA#4 ∨ opc = 0xB#4 ∨ opc = 0xC#4 ∨ opc = 0xD#4 ∨ opc = 0xE#4 ∨ opc = 0xF#4 := by
  decide

section rows
variable (p : Payload)

@[simp] theorem decode_mkRequest_enc0 : decode (mkRequest 0x0#4 p) = .enc0 := by
  rw [decode, reqOpc_mkRequest]; rfl

@[simp] theorem decode_mkRequest_enc1 : decode (mkRequest 0x1#4 p) = .enc1 (lane1 p) := by
  rw [decode, reqOpc_mkRequest, reqPayload_mkRequest]; rfl

@[simp] theorem decode_mkRequest_enc2 : decode (mkRequest 0x2#4 p) = .enc2 (lane1 p) (lane2 p) := by
  rw [decode, reqOpc_mkRequest, reqPayload_mkRequest]; rfl

@[simp] theorem decode_mkRequest_enc3 : decode (mkRequest 0x3#4 p) = .enc3 (lane1 p) (lane2 p) (lane3 p) := by
  rw [decode, reqOpc_mkRequest, reqPayload_mkRequest]; rfl

@[simp] theorem decode_mkRequest_dstart : decode (mkRequest 0x4#4 p) = .dstart p := by
  rw [decode, reqOpc_mkRequest, reqPayload_mkRequest]; rfl

@[simp] theorem decode_mkRequest_dgrp :
    decode (mkRequest 0x5#4 p) = .dgrp (lane0 p) (lane1 p) (lane2 p) (lane3 p) := by
  rw [decode, reqOpc_mkRequest, reqPayload_mkRequest]; rfl

@[simp] theorem decode_mkRequest_symat : decode (mkRequest 0x6#4 p) = .symat (indexField p) := by
  rw [decode, reqOpc_mkRequest, reqPayload_mkRequest]; rfl

@[simp] theorem decode_mkRequest_idxof : decode (mkRequest 0x7#4 p) = .idxof (lane3 p) := by
  rw [decode, reqOpc_mkRequest, reqPayload_mkRequest]; rfl

@[simp] theorem decode_mkRequest_dstat : decode (mkRequest 0x8#4 p) = .dstat := by
  rw [decode, reqOpc_mkRequest]; rfl

@[simp] theorem decode_mkRequest_reserved9 : decode (mkRequest 0x9#4 p) = .reserved9 := by
  rw [decode, reqOpc_mkRequest]; rfl

@[simp] theorem decode_mkRequest_reservedA : decode (mkRequest 0xA#4 p) = .reservedA := by
  rw [decode, reqOpc_mkRequest]; rfl

@[simp] theorem decode_mkRequest_reservedB : decode (mkRequest 0xB#4 p) = .reservedB := by
  rw [decode, reqOpc_mkRequest]; rfl

@[simp] theorem decode_mkRequest_reservedC : decode (mkRequest 0xC#4 p) = .reservedC := by
  rw [decode, reqOpc_mkRequest]; rfl

@[simp] theorem decode_mkRequest_reservedD : decode (mkRequest 0xD#4 p) = .reservedD := by
  rw [decode, reqOpc_mkRequest]; rfl

@[simp] theorem decode_mkRequest_reservedE : decode (mkRequest 0xE#4 p) = .reservedE := by
  rw [decode, reqOpc_mkRequest]; rfl

@[simp] theorem decode_mkRequest_reservedF : decode (mkRequest 0xF#4 p) = .reservedF := by
  rw [decode, reqOpc_mkRequest]; rfl

end rows

/-- Settles O8: the sample words are literals, and `decode` computes their rows. -/
theorem sampleRequestWordsDecode : Obligations.SampleRequestWordsDecode := by
  unfold Obligations.SampleRequestWordsDecode
  decide

/-- An operation code above 32 zeros, as the shift of R68's match puts it. -/
theorem zeroExtend_shiftLeft_eq_mkRequest (opc : BitVec 4) : opc.zeroExtend 36 <<< 32 = mkRequest opc 0#32 := by
  apply BitVec.eq_of_toNat_eq
  have := opc.isLt
  rw [mkRequest_toNat, BitVec.toNat_shiftLeft, BitVec.toNat_setWidth, Nat.shiftLeft_eq, BitVec.toNat_ofNat]
  omega

/-- R68's mask keeps the operation code and clears the payload. -/
theorem and_opcMask (w : Request) : w &&& 0xF00000000#36 = mkRequest (reqOpc w) 0#32 := by
  have hmask : 0xF00000000#36 = BitVec.allOnes 4 ++ 0#32 := by decide
  conv_lhs => rw [← mkRequest_fields w, mkRequest, hmask, BitVec.and_append, BitVec.and_allOnes, BitVec.and_zero]
  rfl

/-- Settles O9: mask and match by `and_opcMask`, the code by `opcOf_decode`, each row by its own lemma. -/
theorem operationCodeAloneSelects : Obligations.OperationCodeAloneSelects := by
  refine ⟨fun w => ?_, fun opc p => ?_, fun p => ?_⟩
  · rw [and_opcMask, Machine.opcOf_decode, zeroExtend_shiftLeft_eq_mkRequest]
  · rw [Machine.opcOf_decode, reqOpc_mkRequest]
  · simp

/-! ### Decode after encode -/

/-- The index of format RS below its zero bits. -/
@[simp] theorem indexField_append (i : Index) : indexField (0#26 ++ i) = i := BitVec.extractLsb'_append_eq_right

/-- The character of format RI below its zero bits. -/
@[simp] theorem lane3_append (c : CharCode) : lane3 (0#24 ++ c) = c := BitVec.extractLsb'_append_eq_right

/-- The assembler writes every operand where the decoder reads it. -/
@[simp] theorem decode_encode (i : Instr) : decode (encode i) = i := by
  cases i <;> simp [encode, opcOf, payloadOf]

/-- The number of a request word is a table row that decodes as the word does. -/
theorem decodeTableWord_toNat (w : Request) : decodeTableWord 36 w.toNat = some (decode w) := by
  rw [decodeTableWord, Machine.tableNumber_of_lt w.isLt le_rfl, decodeNat, if_pos w.isLt, BitVec.ofNat_toNat,
    BitVec.setWidth_eq]

/-- Settles O11: `decode_encode`, on the word and on its number. -/
theorem decodeOfEncodeIsTheOperation : Obligations.DecodeOfEncodeIsTheOperation := by
  intro i _
  exact ⟨decode_encode i, by rw [decodeTableWord_toNat, decode_encode]⟩

/-! ### Encode after decode: the ignored bits -/

/-- A payload is its four lanes. -/
theorem lanes_append (p : Payload) : lane0 p ++ lane1 p ++ lane2 p ++ lane3 p = p := by
  apply BitVec.eq_of_toNat_eq
  have := p.isLt
  rw [lanes_toNat, lane0_toNat, lane1_toNat, lane2_toNat, lane3_toNat]
  omega

/-- A mask made of four byte masks acts lane by lane. -/
theorem and_lanes (p : Payload) (m0 m1 m2 m3 : BitVec 8) :
    p &&& (m0 ++ m1 ++ m2 ++ m3) = (lane0 p &&& m0) ++ (lane1 p &&& m1) ++ (lane2 p &&& m2) ++ (lane3 p &&& m3) := by
  conv_lhs => rw [← lanes_append p, BitVec.and_append, BitVec.and_append, BitVec.and_append]

/-- The mask of a whole lane keeps it. -/
theorem and_laneMask (c : BitVec 8) : c &&& 0xFF#8 = c := BitVec.and_allOnes

/-- A mask of low bits keeps those and clears the rest. -/
theorem and_lowMask {n m : Nat} (x : BitVec (n + m)) :
    x &&& (0#n ++ BitVec.allOnes m) = 0#n ++ x.extractLsb' 0 m := by
  conv_lhs => rw [← BitVec.extractLsb'_append_extractLsb' (x := x), BitVec.and_append, BitVec.and_zero,
    BitVec.and_allOnes]

/-! The payload bits of each format (R61) as the mask of its fields. -/

section masks
variable (p : Payload)

theorem and_maskE1 : p &&& 0x00FF0000#32 = 0#8 ++ lane1 p ++ 0#8 ++ 0#8 := by
  simpa [and_laneMask] using and_lanes p 0#8 0xFF#8 0#8 0#8

theorem and_maskE2 : p &&& 0x00FFFF00#32 = 0#8 ++ lane1 p ++ lane2 p ++ 0#8 := by
  simpa [and_laneMask] using and_lanes p 0#8 0xFF#8 0xFF#8 0#8

theorem and_maskE3 : p &&& 0x00FFFFFF#32 = 0#8 ++ lane1 p ++ lane2 p ++ lane3 p := by
  simpa [and_laneMask] using and_lanes p 0#8 0xFF#8 0xFF#8 0xFF#8

theorem and_maskDL : p &&& 0xFFFFFFFF#32 = p := BitVec.and_allOnes

theorem and_maskRS : p &&& 0x0000003F#32 = 0#26 ++ indexField p := and_lowMask (n := 26) (m := 6) p

theorem and_maskRI : p &&& 0x000000FF#32 = 0#24 ++ lane3 p := and_lowMask (n := 24) (m := 8) p

end masks

/-- The assembler's payload of a decoded operation is the payload with its ignored bits cleared (R70): each row by the
mask of its format, and no bit where the format has no field. -/
theorem payloadOf_decode (opc : BitVec 4) (p : Payload) :
    payloadOf (decode (mkRequest opc p)) = p &&& usedPayloadBits opc := by
  rcases opc_cases opc with
    rfl | rfl | rfl | rfl | rfl | rfl | rfl | rfl | rfl | rfl | rfl | rfl | rfl | rfl | rfl | rfl <;>
  simp [payloadOf, usedPayloadBits, lanes_append, and_maskE1, and_maskE2, and_maskE3, and_maskDL, and_maskRS,
    and_maskRI]

/-- Re-encoding a decoded request clears its ignored bits and changes nothing else (R70). -/
theorem encode_decode (w : Request) :
    encode (decode w) = mkRequest (reqOpc w) (reqPayload w &&& usedPayloadBits (reqOpc w)) := by
  rw [encode, Machine.opcOf_decode, ← payloadOf_decode, mkRequest_fields]

/-- Settles O10: `encode_decode` says that the word decoded depends on its used bits only, and `decode_encode` gives the
operation back from them. -/
theorem ignoredPayloadBitsHaveNoEffect : Obligations.IgnoredPayloadBitsHaveNoEffect := by
  refine ⟨fun opc p q h => ?_, encode_decode⟩
  have henc : encode (decode (mkRequest opc p)) = encode (decode (mkRequest opc q)) := by
    simp only [encode_decode, reqOpc_mkRequest, reqPayload_mkRequest, h]
  rw [← decode_encode (decode (mkRequest opc p)), henc, decode_encode]

end Sys2Proof
namespace Sys2Proof.Machine

/-! ### The response word -/

/-- Bits above the low part of a word are bits of its high part. -/
theorem extractLsb'_append_above {n m : Nat} (hi : BitVec n) (lo : BitVec m) (k len : Nat) :
    (hi ++ lo).extractLsb' (m + k) len = hi.extractLsb' k len := by
  rw [BitVec.extractLsb'_append_eq_of_le (Nat.le_add_right m k), Nat.add_sub_cancel_left]

/-! Each field is reached over the fields below it (R62). -/

section fields
variable (r : Response)

theorem word_data : r.word.extractLsb' 0 32 = r.data := BitVec.extractLsb'_append_eq_right

theorem word_errChar : r.word.extractLsb' 32 8 = r.errChar :=
  (extractLsb'_append_above _ r.data 0 8).trans BitVec.extractLsb'_append_eq_right

theorem word_errIndex : r.word.extractLsb' 40 32 = r.errIndex :=
  (extractLsb'_append_above _ r.data 8 32).trans <| (extractLsb'_append_above _ r.errChar 0 32).trans
    BitVec.extractLsb'_append_eq_right

theorem word_count : r.word.extractLsb' 72 3 = r.count :=
  (extractLsb'_append_above _ r.data 40 3).trans <| (extractLsb'_append_above _ r.errChar 32 3).trans <|
    (extractLsb'_append_above _ r.errIndex 0 3).trans BitVec.extractLsb'_append_eq_right

theorem word_done : r.word.extractLsb' 75 1 = BitVec.ofBool r.done :=
  (extractLsb'_append_above _ r.data 43 1).trans <| (extractLsb'_append_above _ r.errChar 35 1).trans <|
    (extractLsb'_append_above _ r.errIndex 3 1).trans <| (extractLsb'_append_above _ r.count 0 1).trans
      BitVec.extractLsb'_append_eq_right

theorem word_status : r.word.extractLsb' 76 4 = r.status.code :=
  (extractLsb'_append_above _ r.data 44 4).trans <| (extractLsb'_append_above _ r.errChar 36 4).trans <|
    (extractLsb'_append_above _ r.errIndex 4 4).trans <| (extractLsb'_append_above _ r.count 1 4).trans
      BitVec.extractLsb'_append_eq_left

end fields

/-- A word of 80 bits is its six fields: neighbours joined from the top down. -/
theorem fields_append (w : ResponseWord) :
    w.extractLsb' 76 4 ++ w.extractLsb' 75 1 ++ w.extractLsb' 72 3 ++ w.extractLsb' 40 32 ++ w.extractLsb' 32 8 ++
      w.extractLsb' 0 32 = w := by
  rw [BitVec.extractLsb'_append_extractLsb'_eq_extractLsb' (start₂ := 76) rfl,
    BitVec.extractLsb'_append_extractLsb'_eq_extractLsb' (start₂ := 75) rfl,
    BitVec.extractLsb'_append_extractLsb'_eq_extractLsb' (start₂ := 72) rfl,
    BitVec.extractLsb'_append_extractLsb'_eq_extractLsb' (start₂ := 40) rfl]
  exact BitVec.extractLsb'_append_extractLsb' (w := 48)

/-- One bit read as a flag. -/
theorem getLsbD_eq_iff {n : Nat} (x : BitVec n) (k : Nat) (b : Bool) :
    x.getLsbD k = b ↔ x.extractLsb' k 1 = BitVec.ofBool b := by
  rw [BitVec.getLsbD_eq_extractLsb']
  generalize x.extractLsb' k 1 = y
  revert y
  cases b <;> decide

/-- A status code names its status and no other (R140). -/
theorem Status.ofCode_eq_some_iff (c : BitVec 4) (st : Status) : Status.ofCode c = some st ↔ st.code = c := by
  revert c
  cases st <;> decide

/-- The codes from 6 on are reserved (R140). -/
theorem Status.ofCode_of_six_le : ∀ c : BitVec 4, 6 ≤ c.toNat → Status.ofCode c = none := by decide

/-- Reading back undoes `Response.word`, both ways. -/
theorem Response.ofWord_eq_some_iff (w : ResponseWord) (r : Response) : Response.ofWord w = some r ↔ r.word = w := by
  constructor
  · intro h
    obtain ⟨st, hst, rfl⟩ := Option.map_eq_some_iff.1 h
    have hdone := (getLsbD_eq_iff w 75 _).1 rfl
    rw [Response.word, (Status.ofCode_eq_some_iff _ _).1 hst, ← hdone]
    exact fields_append w
  · rintro rfl
    rw [Response.ofWord, word_status, (Status.ofCode_eq_some_iff _ _).2 rfl, (getLsbD_eq_iff _ 75 _).2 (word_done r),
      word_count, word_errIndex, word_errChar, word_data, Option.map_some]

/-- Settles O12: the fields one by one, and `ofWord_eq_some_iff` both ways. -/
theorem responseWordCarriesItsFields : Obligations.ResponseWordCarriesItsFields := by
  refine ⟨fun r => ?_, fun w r => (Response.ofWord_eq_some_iff w r).1, fun w hw => ?_⟩
  · exact ⟨word_status r, word_done r, word_count r, word_errIndex r, word_errChar r, word_data r,
      (Response.ofWord_eq_some_iff _ r).2 rfl⟩
  · rw [Response.ofWord, Status.ofCode_of_six_le _ hw, Option.map_none]

/-! ### What an operation answers -/

/-- Settles O38: an operation is its `transactionOf` (`exec_eq_next_iff`), which reads the registers only, and of the
operations in the second half not even those. -/
theorem responseIsAFunctionOfRequestAndRegisters : Obligations.ResponseIsAFunctionOfRequestAndRegisters := by
  refine ⟨fun i s1 s2 t1 t2 hregs h1 h2 => ?_, fun i s1 s2 t1 t2 hi hdstat h1 h2 => ?_⟩
  · rw [exec_eq_next_iff.1 h1, exec_eq_next_iff.1 h2, hregs]
    exact ⟨rfl, rfl⟩
  · rw [exec_eq_next_iff.1 h1, exec_eq_next_iff.1 h2]
    cases i with
    | dstart len => cases hi
    | dgrp c0 c1 c2 c3 => cases hi
    | dstat => exact absurd rfl hdstat
    | _ => rfl

/-- The operations with a code from 9 on are answered with `IllegalRequest` (R69). -/
theorem exec_of_nine_le_opcOf {i : Instr} (h : 9 ≤ (opcOf i).toNat) (s : State) :
    exec i s = .next { s with response := some ⟨.illegalRequest, false, 0#3, 0#32, 0#8, 0#32⟩ } := by
  cases i with
  | reserved9 | reservedA | reservedB | reservedC | reservedD | reservedE | reservedF => rfl
  | _ => simp [opcOf] at h

/-- Settles O35: both halves are about operations whose code is 9 or more. -/
theorem reservedCodesAreIllegalRequests : Obligations.ReservedCodesAreIllegalRequests := by
  refine ⟨fun i hi s => exec_of_nine_le_opcOf ?_ s, fun opc p s h => exec_of_nine_le_opcOf ?_ s⟩
  · revert i
    decide
  · rwa [opcOf_decode, reqOpc_mkRequest]

/-- Settles O23: for each `n` the decoded operation brings the bytes within the first `n`, and its meaning the zeros
beyond them. -/
theorem encoderForcesInvalidBytesToZero : Obligations.EncoderForcesInvalidBytesToZero := by
  intro n p s
  match n with
  | 0 => exact congrArg (exec · s) (decode_mkRequest_enc0 p)
  | 1 => exact congrArg (exec · s) (decode_mkRequest_enc1 p)
  | 2 => exact congrArg (exec · s) (decode_mkRequest_enc2 p)
  | 3 => exact congrArg (exec · s) (decode_mkRequest_enc3 p)

/-! ### The ENCODE expansion -/

/-- A group with a byte in it gives four characters (R91). -/
theorem encGroup_count {n : Fin 4} (hn : n ≠ 0) (g : ByteGroup) : (encGroup n g).1 = 4#3 := by
  simp [encGroup, hn]

/-- All four characters of such a group's response are valid (R72). -/
theorem validChars_encGroup {n : Fin 4} (hn : n ≠ 0) (g : ByteGroup) :
    validChars (plainResponse (encGroup n g).1 (encGroup n g).2) = charLanes (encGroup n g).2 := by
  rw [validChars, plainResponse_count, plainResponse_data, encGroup_count hn]
  rfl

/-- The port events of a list of operations presented from the registers `r`. -/
def opEvents (r : Regs) (ops : List Instr) : List PortEvent := eventsOf r ((ops.map encode).map .request)

theorem fullTranscript_presentAll_encode (s : State) (ops : List Instr) :
    fullTranscript (presentAll s (ops.map encode)) = opEvents s.regs ops :=
  fullTranscript_eq _

/-- The first operation's characters, then those of the rest. -/
theorem encodedText_opEvents_cons (r : Regs) (i : Instr) (ops : List Instr) :
    encodedText (opEvents r (i :: ops)) =
      validChars (transactionOf i r).2 ++ encodedText (opEvents (transactionOf i r).1 ops) := by
  simp [encodedText, opEvents, eventsOf, PortEvent.responses]

/-- From any registers the expansion of a message gives its encoding, group by group (R72, R100). -/
theorem encodedText_opEvents_encodeOps (r : Regs) (b : List Byte) :
    encodedText (opEvents r (encodeOps b)) = encodeMessage b := by
  induction b using encodeOps.induct with
  | case1 b0 b1 b2 rest ih =>
    rw [encodeOps, encodedText_opEvents_cons, encodeMessage, ← ih, transactionOf, validChars_encGroup (by decide)]
  | case2 b0 b1 =>
    rw [encodeOps, encodedText_opEvents_cons, encodeMessage, transactionOf, validChars_encGroup (by decide)]
    exact List.append_nil _
  | case3 b0 =>
    rw [encodeOps, encodedText_opEvents_cons, encodeMessage, transactionOf, validChars_encGroup (by decide)]
    exact List.append_nil _
  | case4 => rfl

/-- Settles O26: the transcript is the expansion's `opEvents`, and those give the encoding. -/
theorem encodeExpansionComputesEncode : Obligations.EncodeExpansionComputesEncode := by
  intro b s
  rw [fullTranscript_presentAll_encode, encodedText_opEvents_encodeOps]

/-! ### The assembler -/

/-- A byte's number fits a byte operand. -/
@[simp] theorem fitsByte_toNat (b : Byte) : fitsByte b.toNat = true := decide_eq_true b.isLt

/-- A line of one operation, its operands in range, makes that operation's word. -/
theorem assemble_of_lineOps {l : AsmLine} (i : Instr) (hwf : l.wf = true) (hops : lineOps l = [i]) :
    assemble l = some [encode i] := by
  rw [assemble, if_pos hwf, hops, List.map_singleton]

/-- Settles O13: each line is well formed, its numbers are the operands again, and `encode` writes the word. -/
theorem assemblerLinesMakeTheirWords : Obligations.AssemblerLinesMakeTheirWords := by
  refine ⟨rfl, rfl, fun b0 b1 b2 => ⟨?_, ?_, ?_⟩, fun len => ?_, fun c0 c1 c2 c3 => ⟨?_, ?_⟩, fun i => ?_, fun c => ?_⟩
  · exact assemble_of_lineOps (.enc1 b0) (fitsByte_toNat b0) (by simp [lineOps])
  · exact assemble_of_lineOps (.enc2 b0 b1) (by simp [AsmLine.wf]) (by simp [lineOps])
  · exact assemble_of_lineOps (.enc3 b0 b1 b2) (by simp [AsmLine.wf]) (by simp [lineOps])
  · exact assemble_of_lineOps (.dstart len) (decide_eq_true len.isLt) (by simp [lineOps])
  · exact assemble_of_lineOps (.dgrp c0 c1 c2 c3) (by simp [AsmLine.wf]) (by simp [lineOps])
  · exact assemble_of_lineOps (.dgrp c0 c1 c2 c3) (by simp [AsmLine.wf]) (by simp [lineOps, groupOps])
  · exact assemble_of_lineOps (.symat i) (decide_eq_true i.isLt) (by simp [lineOps])
  · exact assemble_of_lineOps (.idxof c) (fitsByte_toNat c) (by simp [lineOps])

end Sys2Proof.Machine
end

