-- ==== Sys2Proof/Proofs/RomLookup.lean ====
section
/-! Proofs of the ROM lookup family: the closed forms of the two tables (R81 to R83), that they are inverse to each
other (R86), and the two operations that read them (R84, R85). Each table is evaluated once for its closed form; what
else is said of every entry comes from that or from the laws of the ROMs. -/

namespace Sys2Proof.Machine

/-! ### The tables in closed form -/

set_option maxRecDepth 4000 in
/-- The five runs of `symbol_rom` (R81). -/
theorem toNat_memReadSym : ∀ i : Index, (memReadSym i).toNat =
    if i.toNat ≤ 25 then 0x41 + i.toNat
    else if i.toNat ≤ 51 then 0x61 + (i.toNat - 26)
    else if i.toNat ≤ 61 then 0x30 + (i.toNat - 52)
    else if i.toNat = 62 then 0x2B
    else 0x2F := by
  decide

set_option maxRecDepth 10000 in
/-- The five runs of valid entries in `inverse_symbol_rom` (R82, R83). -/
theorem invEntry_eq : ∀ c : CharCode, invEntry c =
    if 0x41 ≤ c.toNat ∧ c.toNat ≤ 0x5A then valid (c.toNat - 0x41)
    else if 0x61 ≤ c.toNat ∧ c.toNat ≤ 0x7A then valid (c.toNat - 0x61 + 26)
    else if 0x30 ≤ c.toNat ∧ c.toNat ≤ 0x39 then valid (c.toNat - 0x30 + 52)
    else if c.toNat = 0x2B then valid 62
    else if c.toNat = 0x2F then valid 63
    else none := by
  decide

/-- A valid entry holding `n` reads as `n`. -/
theorem toNat_getD_valid {n : Nat} (hn : n < 64) : ((valid n).getD Config.invFill).toNat = n :=
  Nat.mod_eq_of_lt hn

/-- The validity bit is 1 exactly at an entry that holds an index (R43). -/
theorem memReadInvv_eq_one_iff (c : CharCode) : memReadInvv c = 1#1 ↔ (invEntry c).isSome = true := by
  rw [memReadInvv]
  cases (invEntry c).isSome <;> decide

/-- The column `INV` in closed form (R82). -/
theorem toNat_memReadInv (c : CharCode) : (memReadInv c).toNat =
    if 0x41 ≤ c.toNat ∧ c.toNat ≤ 0x5A then c.toNat - 0x41
    else if 0x61 ≤ c.toNat ∧ c.toNat ≤ 0x7A then c.toNat - 0x61 + 26
    else if 0x30 ≤ c.toNat ∧ c.toNat ≤ 0x39 then c.toNat - 0x30 + 52
    else if c.toNat = 0x2B then 62
    else if c.toNat = 0x2F then 63
    else 0 := by
  rw [memReadInv, invEntry_eq]
  split_ifs
  case neg => rfl
  all_goals exact toNat_getD_valid (by omega)

/-- The column `INVV` in closed form (R83). -/
theorem memReadInvv_eq_one_iff_ranges (c : CharCode) : memReadInvv c = 1#1 ↔
    (0x41 ≤ c.toNat ∧ c.toNat ≤ 0x5A) ∨ (0x61 ≤ c.toNat ∧ c.toNat ≤ 0x7A) ∨
    (0x30 ≤ c.toNat ∧ c.toNat ≤ 0x39) ∨ c.toNat = 0x2B ∨ c.toNat = 0x2F := by
  rw [memReadInvv_eq_one_iff, invEntry_eq]
  split_ifs <;> simp [valid, *]

set_option maxRecDepth 10000 in
/-- As many entries are valid as the alphabet has symbols (R83). -/
theorem count_valid_entries :
    ((List.range 256).filter fun n => memReadInvv (BitVec.ofNat 8 n) == 1#1).length = 64 := by
  decide

/-- Settles O14: `toNat_memReadSym`, run by run. -/
theorem symbolRomHoldsTheAlphabet : Obligations.SymbolRomHoldsTheAlphabet := by
  refine ⟨fun i => ?_, rfl⟩
  rw [toNat_memReadSym]
  split_ifs <;> omega

/-- Settles O15: the two closed forms, the count of the valid entries, and the inverse laws of the ROMs. -/
theorem inverseRomHoldsIndexAndValidity : Obligations.InverseRomHoldsIndexAndValidity :=
  ⟨toNat_memReadInv, memReadInvv_eq_one_iff_ranges, count_valid_entries, memReadInv_charOfSym,
    fun c h => charOfSym_memReadInv c ((isValid_iff c).2 h)⟩

/-! ### The tables against each other -/

/-- Different indices have different symbols, for `INV` gives the index back (R86). -/
theorem memReadSym_injective : Function.Injective memReadSym :=
  Function.LeftInverse.injective (g := memReadInv ∘ charOfSym) memReadInv_charOfSym

/-- No symbol is `=` (R86). -/
theorem charOfSym_memReadSym_ne_pad (i : Index) : charOfSym (memReadSym i) ≠ Config.pad := fun h => by
  simpa [h] using isPad_charOfSym i

/-- Where the symbols lie (R86). -/
theorem memReadSym_bounds (i : Index) : 0x2B ≤ (memReadSym i).toNat ∧ (memReadSym i).toNat ≤ 0x7A := by
  rw [toNat_memReadSym]
  split_ifs <;> omega

/-- Settles O16: the inverse laws of the ROMs, and what follows from them and from the closed form of the symbols. -/
theorem tablesAreInverse : Obligations.TablesAreInverse := by
  refine ⟨fun i => ⟨?_, memReadInv_charOfSym i⟩, fun c h => ?_, fun i j h => memReadSym_injective h,
    fun i => ⟨fun h => ?_, memReadSym_bounds i⟩⟩
  · exact (isValid_iff _).1 (isValid_charOfSym i)
  · exact charOfSym_memReadInv c ((isValid_iff c).2 h)
  · exact charOfSym_memReadSym_ne_pad i (congrArg charOfSym h)

/-! ### The operations that read the tables -/

/-- Settles O17: the decoder's row for 0x6, the transaction of SYMAT, and the symbols at the three indices. -/
theorem symatReturnsTheSymbol : Obligations.SymatReturnsTheSymbol :=
  ⟨decode_mkRequest_symat, fun i s => exec_eq_respond (.symat i) s, by decide, by decide, by decide,
    charOfSym_memReadSym_ne_pad⟩

/-- Settles O18: the decoder's row for 0x7, the transaction of IDXOF, and the entries at the rule's corner cases. -/
theorem idxofReturnsIndexAndValidity : Obligations.IdxofReturnsIndexAndValidity :=
  ⟨decode_mkRequest_idxof, fun c s => exec_eq_respond (.idxof c) s, by decide⟩

end Sys2Proof.Machine
end

