-- ==== Sys2Proof/Proofs/Encoder.lean ====
section
/-! Proofs of the encoder family: what ENC0 to ENC3 answer (R92 to R96), and the laws of the text that `encode` makes
(R101). Everything comes from the 6-bit groups of `enc_group` in terms of the bytes (R91). -/

namespace Sys2Proof.Machine

/-! ### The 6-bit groups of a byte group: `i0` to `i3` of R91 -/

/-- Bits that straddle the two parts of a word: the low ones of its high part, then the top ones of its low part. -/
theorem extractLsb'_append_across {n m k j : Nat} (hi : BitVec n) (lo : BitVec m) (h : k + j = m) (l : Nat) :
    (hi ++ lo).extractLsb' k (l + j) = hi.extractLsb' 0 l ++ lo.extractLsb' k j := by
  rw [← BitVec.extractLsb'_append_extractLsb'_eq_extractLsb' (start₂ := m + 0) h.symm, extractLsb'_append_above,
    BitVec.extractLsb'_append_eq_of_add_le h.le]

section groups
variable (b0 b1 b2 : Byte)

@[simp] theorem byteGroup_i0 : (byteGroup b0 b1 b2).extractLsb' 18 6 = b0.extractLsb' 2 6 :=
  (extractLsb'_append_above (b0 ++ b1) b2 10 6).trans (extractLsb'_append_above b0 b1 2 6)

@[simp] theorem byteGroup_i1 : (byteGroup b0 b1 b2).extractLsb' 12 6 = b0.extractLsb' 0 2 ++ b1.extractLsb' 4 4 :=
  (extractLsb'_append_above (b0 ++ b1) b2 4 6).trans (extractLsb'_append_across b0 b1 (j := 4) rfl 2)

@[simp] theorem byteGroup_i2 : (byteGroup b0 b1 b2).extractLsb' 6 6 = b1.extractLsb' 0 4 ++ b2.extractLsb' 6 2 := by
  have hacross := extractLsb'_append_across (b0 ++ b1) b2 (k := 6) (j := 2) rfl 4
  rwa [BitVec.extractLsb'_append_eq_of_add_le (xhi := b0) (xlo := b1) (by decide)] at hacross

@[simp] theorem byteGroup_i3 : (byteGroup b0 b1 b2).extractLsb' 0 6 = b2.extractLsb' 0 6 :=
  BitVec.extractLsb'_append_eq_of_add_le (by decide)

/-- A one-byte tail: two symbols, then `==` (R91, R93). -/
theorem encGroup_one : encGroup 1 (byteGroup b0 0#8 0#8) = (4#3, packChars
    (charOfSym (memReadSym (b0.extractLsb' 2 6))) (charOfSym (memReadSym (b0.extractLsb' 0 2 ++ 0#4)))
    Config.pad Config.pad) := by
  simp [encGroup]

/-- A two-byte tail: three symbols, then `=` (R91, R94). -/
theorem encGroup_two : encGroup 2 (byteGroup b0 b1 0#8) = (4#3, packChars
    (charOfSym (memReadSym (b0.extractLsb' 2 6)))
    (charOfSym (memReadSym (b0.extractLsb' 0 2 ++ b1.extractLsb' 4 4)))
    (charOfSym (memReadSym (b1.extractLsb' 0 4 ++ 0#2))) Config.pad) := by
  simp [encGroup]

/-- A full group: four symbols (R91, R95). -/
theorem encGroup_three : encGroup 3 (byteGroup b0 b1 b2) = (4#3, packChars
    (charOfSym (memReadSym (b0.extractLsb' 2 6)))
    (charOfSym (memReadSym (b0.extractLsb' 0 2 ++ b1.extractLsb' 4 4)))
    (charOfSym (memReadSym (b1.extractLsb' 0 4 ++ b2.extractLsb' 6 2)))
    (charOfSym (memReadSym (b2.extractLsb' 0 6)))) := by
  simp [encGroup]

end groups

/-! ### The four operations -/

/-- The operations with a code up to 3 answer with some group's characters (R92 to R95). -/
theorem transactionOf_of_opcOf_le_three {i : Instr} (h : (opcOf i).toNat ≤ 3) (r : Regs) :
    ∃ n g, transactionOf i r = (r, plainResponse (encGroup n g).1 (encGroup n g).2) := by
  cases i with
  | enc0 | enc1 | enc2 | enc3 => exact ⟨_, _, rfl⟩
  | _ => simp [opcOf] at h

/-- Settles O19: the decoder's row for 0x0, and the transaction of ENC0. -/
theorem emptyGroupYieldsNoCharacter : Obligations.EmptyGroupYieldsNoCharacter :=
  ⟨decode_mkRequest_enc0, fun s => exec_eq_respond .enc0 s⟩

/-- The symbols whose index has its low four bits zero: `A`, `Q`, `g`, `w` (R93). -/
theorem charOfSym_multiple_of_16_mem :
    ∀ x : BitVec 2, charOfSym (memReadSym (x ++ 0#4)) ∈ [0x41#8, 0x51#8, 0x67#8, 0x77#8] := by
  decide

/-- Settles O20: the decoder's row for 0x1, and `encGroup_one`. -/
theorem oneByteTailYieldsTwoSymbols : Obligations.OneByteTailYieldsTwoSymbols := by
  refine ⟨decode_mkRequest_enc1, fun b0 s => ?_, fun s => rfl, fun b0 => charOfSym_multiple_of_16_mem _⟩
  rw [exec_eq_respond, transactionOf, encGroup_one]
  rfl

/-- Settles O21: the decoder's row for 0x2, and `encGroup_two`. -/
theorem twoByteTailYieldsThreeSymbols : Obligations.TwoByteTailYieldsThreeSymbols := by
  refine ⟨decode_mkRequest_enc2, fun b0 b1 s => ?_, fun s => rfl⟩
  rw [exec_eq_respond, transactionOf, encGroup_two]
  rfl

/-- Settles O22: the decoder's row for 0x3, and `encGroup_three`. -/
theorem fullGroupYieldsFourSymbols : Obligations.FullGroupYieldsFourSymbols := by
  refine ⟨decode_mkRequest_enc3, fun b0 b1 b2 s => ?_, fun s => rfl⟩
  rw [exec_eq_respond, transactionOf, encGroup_three]
  rfl

/-! ### Seven-bit characters -/

/-- A `SYM` word has seven bits, so its character has bit 7 clear (R52). -/
theorem charOfSym_bit_seven (w : SymWord) : (charOfSym w)[7] = false := by
  rw [← BitVec.getLsbD_eq_getElem, charOfSym, BitVec.getLsbD_setWidth, BitVec.getLsbD_of_ge w 7 le_rfl, Bool.and_false]

/-- A character of a group is a symbol or `=`, or 0 where the group is empty; each has bit 7 clear (R96). -/
theorem bit_seven_of_mem_encGroup (n : Fin 4) (g : ByteGroup) :
    ∀ c ∈ charLanes (encGroup n g).2, c.getLsbD 7 = false := by
  have hpad : Config.pad[7] = false := by decide
  match n with
  | 0 =>
    rw [encGroup, if_pos rfl]
    decide
  | 1 | 2 | 3 => simp [encGroup, charOfSym_bit_seven, hpad]

/-- Settles O24: an encoder operation answers with a group's characters. -/
theorem encoderCharactersAreSevenBit : Obligations.EncoderCharactersAreSevenBit := by
  intro i s t rsp hi ht hrsp
  obtain ⟨n, g, hgroup⟩ := transactionOf_of_opcOf_le_three hi s.regs
  rw [exec_eq_next_iff.1 ht, respond_response, hgroup] at hrsp
  cases hrsp
  exact bit_seven_of_mem_encGroup n g

/-! ### The laws of an encoded message -/

/-- The indices whose symbols are the data characters of `encode(b)`, group by group (R91, R100). -/
def encodedIndices : List Byte → List Index
  | b0 :: b1 :: b2 :: rest =>
    [b0.extractLsb' 2 6, b0.extractLsb' 0 2 ++ b1.extractLsb' 4 4, b1.extractLsb' 0 4 ++ b2.extractLsb' 6 2,
      b2.extractLsb' 0 6] ++ encodedIndices rest
  | [b0, b1] => [b0.extractLsb' 2 6, b0.extractLsb' 0 2 ++ b1.extractLsb' 4 4, b1.extractLsb' 0 4 ++ 0#2]
  | [b0] => [b0.extractLsb' 2 6, b0.extractLsb' 0 2 ++ 0#4]
  | [] => []

/-- The number of padding characters of `encode(b)` (R101). -/
def padLength (b : List Byte) : Nat := (3 - b.length % 3) % 3

/-- A full group changes nothing about the padding. -/
@[simp] theorem padLength_group (b0 b1 b2 : Byte) (rest : List Byte) :
    padLength (b0 :: b1 :: b2 :: rest) = padLength rest :=
  congrArg (fun k => (3 - k) % 3) (Nat.add_mod_right rest.length 3)

/-- An encoded message is the symbols of its indices, then its padding (R100, R101). -/
theorem encodeMessage_eq (b : List Byte) :
    encodeMessage b =
      (encodedIndices b).map (charOfSym ∘ memReadSym) ++ List.replicate (padLength b) Config.pad := by
  induction b using encodedIndices.induct with
  | case1 b0 b1 b2 rest ih => simp [encodeMessage, encodedIndices, encGroup_three, ih]
  | case2 b0 b1 => simp [encodeMessage, encodedIndices, encGroup_two, padLength]
  | case3 b0 => simp [encodeMessage, encodedIndices, encGroup_one, padLength]
  | case4 => rfl

@[simp] theorem length_charLanes (w : Payload) : (charLanes w).length = 4 := rfl

/-- Every group, and the tail if there is one, makes four characters (R101). -/
theorem length_encodeMessage (b : List Byte) : (encodeMessage b).length = 4 * ((b.length + 2) / 3) := by
  induction b using encodeMessage.induct with
  | case1 b0 b1 b2 rest ih =>
    simp only [encodeMessage, List.length_append, length_charLanes, ih, List.length_cons]
    omega
  | case2 b0 b1 => simp [encodeMessage]
  | case3 b0 => simp [encodeMessage]
  | case4 => rfl

/-- In a message with padding the last index has two low bits zero for each padding character (R101). -/
theorem getLast?_encodedIndices {b : List Byte} (h : padLength b ≠ 0) :
    ∃ i, (encodedIndices b).getLast? = some i ∧ i.extractLsb' 0 (2 * padLength b) = 0#_ := by
  induction b using encodedIndices.induct with
  | case1 b0 b1 b2 rest ih =>
    rw [padLength_group] at h ⊢
    obtain ⟨i, hlast, hzero⟩ := ih h
    exact ⟨i, by rw [encodedIndices, List.getLast?_append, hlast, Option.some_or], hzero⟩
  | case2 b0 b1 => exact ⟨_, rfl, BitVec.extractLsb'_append_eq_right⟩
  | case3 b0 => exact ⟨_, rfl, BitVec.extractLsb'_append_eq_right⟩
  | case4 => exact absurd rfl h

/-- The same of the last data character, by the index that `INV` gives back for it (R101). -/
theorem getLast?_encodedSymbols {b : List Byte} {p : Nat} (h : padLength b = p) (hp : p ≠ 0) :
    ∃ c, ((encodedIndices b).map (charOfSym ∘ memReadSym)).getLast? = some c ∧
      (memReadInv c).extractLsb' 0 (2 * p) = 0#_ := by
  subst h
  obtain ⟨i, hlast, hzero⟩ := getLast?_encodedIndices hp
  refine ⟨charOfSym (memReadSym i), ?_, ?_⟩
  · rw [List.getLast?_map, hlast, Option.map_some, Function.comp_apply]
  · rwa [memReadInv_charOfSym]

/-- Settles O25: the body is the symbols of `encodedIndices`, none of them `=`; with one byte over there are two padding
characters, with two bytes over there is one. -/
theorem encodedMessagesObeyTheLaws : Obligations.EncodedMessagesObeyTheLaws := by
  intro b
  refine ⟨length_encodeMessage b, (encodedIndices b).map (charOfSym ∘ memReadSym), encodeMessage_eq b, fun c hc => ?_,
    fun h => getLast?_encodedSymbols (p := 2) (by rw [padLength, h]) (by decide),
    fun h => getLast?_encodedSymbols (p := 1) (by rw [padLength, h]) (by decide)⟩
  obtain ⟨i, -, rfl⟩ := List.mem_map.1 hc
  exact ⟨(isValid_iff _).1 (isValid_charOfSym i), charOfSym_memReadSym_ne_pad i⟩

end Sys2Proof.Machine
end

