-- ==== Sys2Proof/Proofs/Decoder.lean ====
section
/-! Proofs of the decoder family: what DSTART, DGRP and DSTAT answer (R115 to R121), the laws of `decode` over whole
strings (R111 to R114, R124 to R129), and the messages of a run with their results (R122, R123). -/

namespace Sys2Proof.Machine

/-! ### What `=` and the validity bit say of a character -/

/-- A character that may stand in a group, as the rules write it (R113, R142). -/
theorem isOffending_eq_false_iff (c : CharCode) : isOffending c = false ↔ c = 0x3D#8 ∨ memReadInvv c = 1#1 := by
  rw [isOffending_eq_false, isValid_iff]

/-- An offending character, as the rules write it. -/
theorem isOffending_iff (c : CharCode) : isOffending c = true ↔ c ≠ 0x3D#8 ∧ memReadInvv c = 0#1 := by
  have hbit : memReadInvv c = 0#1 ↔ ¬memReadInvv c = 1#1 := by
    generalize memReadInvv c = v
    revert v
    decide
  rw [← Bool.not_eq_false, isOffending_eq_false_iff, not_or, hbit]

/-- A group without an offending character. -/
theorem firstOffending_eq_none_of_forall {c0 c1 c2 c3 : CharCode}
    (h : ∀ c ∈ [c0, c1, c2, c3], c = 0x3D#8 ∨ memReadInvv c = 1#1) : firstOffending c0 c1 c2 c3 = none := by
  simp only [← isOffending_eq_false_iff] at h
  exact firstOffending_eq_none.2 (by simpa using h)

/-- The lowest offending lane of a group. -/
theorem firstOffending_eq_some_of_forall_lt {c0 c1 c2 c3 : CharCode} {j : Fin 4}
    (hj : ![c0, c1, c2, c3] j ≠ 0x3D#8 ∧ memReadInvv (![c0, c1, c2, c3] j) = 0#1)
    (hlt : ∀ k < j, ![c0, c1, c2, c3] k = 0x3D#8 ∨ memReadInvv (![c0, c1, c2, c3] k) = 1#1) :
    firstOffending c0 c1 c2 c3 = some (j, ![c0, c1, c2, c3] j) :=
  firstOffending_eq_some.2
    ⟨rfl, (isOffending_iff _).2 hj, fun k hk => (isOffending_eq_false_iff _).2 (hlt k hk)⟩

/-- The patterns of `=` that may stand in a group (R113). -/
theorem padCount_eq_none_iff (c0 c1 c2 c3 : CharCode) (last : Bool) :
    padCount c0 c1 c2 c3 last = none ↔ [c0, c1, c2, c3].map isPad ∉
      (if last then [[false, false, false, false], [false, false, false, true], [false, false, true, true]]
        else [[false, false, false, false]]) := by
  simp only [padCount, List.map_cons, List.map_nil]
  cases last <;> cases isPad c0 <;> cases isPad c1 <;> cases isPad c2 <;> cases isPad c3 <;> decide

/-! ### DSTART -/

/-- Settles O28: the three ways of `startMessage`, told apart by the length. -/
theorem dstartOpensAMessage : Obligations.DstartOpensAMessage := by
  refine ⟨decode_mkRequest_dstart, fun len s => ⟨fun hlen => ?_, fun hlen => ?_, fun hlen hne => ?_⟩⟩
  · rcases startMessage_cases len s.regs with ⟨-, e⟩ | ⟨rfl, -⟩ | ⟨hlow, -, -⟩
    · rw [exec_eq_respond, transactionOf, e]
      rfl
    · exact absurd rfl hlen
    · exact absurd ((lowBits_eq_zero_iff len).1 hlow) hlen
  · subst hlen
    rfl
  · rcases startMessage_cases len s.regs with ⟨hlow, -⟩ | ⟨h0, -⟩ | ⟨-, -, e⟩
    · exact absurd ((lowBits_eq_zero_iff len).2 hlen) hlow
    · exact absurd h0 hne
    · rw [exec_eq_respond, transactionOf, e]
      rfl

/-! ### The transaction of an accepted group, case by case -/

section accepted
variable {c0 c1 c2 c3 c : CharCode} {j : Fin 4} {r : Regs}

theorem finishGroup_raise_character (n : Len) (c : CharCode) (r : Regs) :
    finishGroup (raise (.invalidCharacter n c) r, emitNone) =
      (⟨.rejected, r.decLen, r.decPos + 4#32, .invalidCharacter, n, c⟩,
        ⟨.invalidCharacter, true, 0#3, n, c, 0#32⟩) := rfl

theorem finishGroup_raise_padding (r : Regs) :
    finishGroup (raise .invalidPadding r, emitNone) =
      ({ r with decState := .rejected, decErr := .invalidPadding, decPos := r.decPos + 4#32 },
        ⟨.invalidPadding, r.decPos + 4#32 == r.decLen, 0#3, r.decErrIndex, r.decErrChar, 0#32⟩) := rfl

/-- Recording again the error that is recorded changes nothing. -/
theorem raise_padding_eq_self (hs : r.decState = .rejected) (he : r.decErr = .invalidPadding) :
    raise .invalidPadding r = r := by
  rw [raise, ← hs, ← he]

theorem groupTransaction_of_expectGroup (hs : r.decState = .expectGroup) :
    groupTransaction c0 c1 c2 c3 r = finishGroup (decodeGroup c0 c1 c2 c3 r) := by
  rw [groupTransaction, if_pos (accepting_iff.2 (.inl hs)), if_pos hs]

theorem groupTransaction_of_rejected (hs : r.decState = .rejected) (he : r.decErr ≠ .malformedLength)
    (hlt : r.decPos < r.decLen) : groupTransaction c0 c1 c2 c3 r = finishGroup (absorbGroup c0 c1 c2 c3 r) := by
  rw [groupTransaction, if_pos (accepting_iff.2 (.inr ⟨hs, he, hlt⟩)), if_neg (by simp [hs])]

/-- An offending character is recorded from `ExpectGroup`, or over a recorded padding error with groups left
(R118, R119). -/
theorem groupTransaction_of_offending (hf : firstOffending c0 c1 c2 c3 = some (j, c))
    (hs : r.decState = .expectGroup ∨
      (r.decState = .rejected ∧ r.decErr = .invalidPadding ∧ r.decPos < r.decLen)) :
    groupTransaction c0 c1 c2 c3 r =
      (⟨.rejected, r.decLen, r.decPos + 4#32, .invalidCharacter, r.decPos + BitVec.ofNat 32 j.val, c⟩,
        ⟨.invalidCharacter, true, 0#3, r.decPos + BitVec.ofNat 32 j.val, c, 0#32⟩) := by
  rcases hs with hs | ⟨hs, he, hlt⟩
  · rw [groupTransaction_of_expectGroup hs, decodeGroup, decGroup, decGroupVia, hf]
    rfl
  · rw [groupTransaction_of_rejected hs (by simp [he]) hlt, absorbGroup, if_pos he, hf]
    rfl

/-- A padding error is recorded from `ExpectGroup` (R118). -/
theorem groupTransaction_of_misplacedPad (hs : r.decState = .expectGroup)
    (hf : firstOffending c0 c1 c2 c3 = none) (hp : padCount c0 c1 c2 c3 (isLastGroup r) = none) :
    groupTransaction c0 c1 c2 c3 r =
      ({ r with decState := .rejected, decErr := .invalidPadding, decPos := r.decPos + 4#32 },
        ⟨.invalidPadding, r.decPos + 4#32 == r.decLen, 0#3, r.decErrIndex, r.decErrChar, 0#32⟩) := by
  rw [groupTransaction_of_expectGroup hs, decodeGroup, decGroup, decGroupVia, hf, hp]
  rfl

/-- A recorded padding error is kept where no character offends (R119). -/
theorem groupTransaction_of_padding_kept (hs : r.decState = .rejected) (he : r.decErr = .invalidPadding)
    (hlt : r.decPos < r.decLen) (hf : firstOffending c0 c1 c2 c3 = none) :
    groupTransaction c0 c1 c2 c3 r =
      ({ r with decPos := r.decPos + 4#32 },
        ⟨.invalidPadding, r.decPos + 4#32 == r.decLen, 0#3, r.decErrIndex, r.decErrChar, 0#32⟩) := by
  rw [groupTransaction_of_rejected hs (by simp [he]) hlt, absorbGroup, if_pos he, hf]
  conv_lhs => rw [← raise_padding_eq_self hs he]
  rw [finishGroup_raise_padding, ← hs, ← he]

/-- A recorded character is kept (R119). -/
theorem groupTransaction_of_character_kept (hs : r.decState = .rejected) (he : r.decErr = .invalidCharacter)
    (hlt : r.decPos < r.decLen) :
    groupTransaction c0 c1 c2 c3 r =
      ({ r with decPos := r.decPos + 4#32 },
        ⟨.invalidCharacter, true, 0#3, r.decErrIndex, r.decErrChar, 0#32⟩) := by
  have hself : raise (.invalidCharacter r.decErrIndex r.decErrChar) r = r := by rw [raise, ← hs, ← he]
  rw [groupTransaction_of_rejected hs (by simp [he]) hlt, absorbGroup, if_neg (by simp [he])]
  conv_lhs => rw [← hself]
  rw [finishGroup_raise_character, ← hs, ← he]

end accepted

/-- Settles O30: `groupTransaction_of_offending` from `ExpectGroup`. -/
theorem invalidCharacterIsReportedAtItsIndex : Obligations.InvalidCharacterIsReportedAtItsIndex := by
  intro c0 c1 c2 c3 j s hs hj hlt
  rw [exec_eq_respond, transactionOf,
    groupTransaction_of_offending (firstOffending_eq_some_of_forall_lt hj hlt) (.inl hs)]
  rfl

/-- Settles O31: `groupTransaction_of_misplacedPad`, its pattern read off the group. -/
theorem misplacedPaddingIsReported : Obligations.MisplacedPaddingIsReported := by
  intro c0 c1 c2 c3 s hs hc hpat
  have hp : padCount c0 c1 c2 c3 (isLastGroup s.regs) = none := by
    rw [padCount_eq_none_iff]
    simp only [isLastGroup, beq_iff_eq]
    exact hpat
  rw [exec_eq_respond, transactionOf, groupTransaction_of_misplacedPad hs (firstOffending_eq_none_of_forall hc) hp]
  rfl

/-- Settles O33: the three lemmas about a group presented in `Rejected`. -/
theorem rejectedMessageAbsorbsItsGroups : Obligations.RejectedMessageAbsorbsItsGroups := by
  intro c0 c1 c2 c3 s hs hlt
  refine ⟨fun j he hj hlow => ?_, fun he hc => ?_, fun he => ?_⟩ <;> rw [exec_eq_respond, transactionOf]
  · rw [groupTransaction_of_offending (firstOffending_eq_some_of_forall_lt hj hlow) (.inr ⟨hs, he, hlt⟩)]
    rfl
  · rw [groupTransaction_of_padding_kept hs he hlt (firstOffending_eq_none_of_forall hc)]
    rfl
  · rw [groupTransaction_of_character_kept hs he hlt]
    rfl

/-! ### The bytes of a good group -/

section value
variable (i0 i1 i2 i3 : Index)

/-! The three bytes of four 6-bit indices put together (R114). -/

theorem indices_byte0 : (i0 ++ i1 ++ i2 ++ i3).extractLsb' 16 8 = i0 ++ i1.extractLsb' 4 2 :=
  (extractLsb'_append_above (i0 ++ i1 ++ i2) i3 10 8).trans <| (extractLsb'_append_above (i0 ++ i1) i2 4 8).trans <| by
    rw [extractLsb'_append_across i0 i1 (j := 2) rfl 6, BitVec.extractLsb'_eq_self]

theorem indices_byte1 : (i0 ++ i1 ++ i2 ++ i3).extractLsb' 8 8 = i1.extractLsb' 0 4 ++ i2.extractLsb' 2 4 :=
  (extractLsb'_append_above (i0 ++ i1 ++ i2) i3 2 8).trans <| by
    rw [extractLsb'_append_across (i0 ++ i1) i2 (j := 4) rfl 4, BitVec.extractLsb'_append_eq_of_add_le (by decide)]

theorem indices_byte2 : (i0 ++ i1 ++ i2 ++ i3).extractLsb' 0 8 = i2.extractLsb' 0 2 ++ i3 := by
  rw [extractLsb'_append_across (i0 ++ i1 ++ i2) i3 (k := 0) (j := 6) rfl 2,
    BitVec.extractLsb'_append_eq_of_add_le (by decide), BitVec.extractLsb'_eq_self]

end value

/-- The 24-bit value of a group with `p` padding positions, each counting as 0 (R114). -/
def groupValue (c0 c1 c2 c3 : CharCode) (p : Fin 3) : ByteGroup :=
  memReadInv c0 ++ memReadInv c1 ++ (if p ≤ 1 then memReadInv c2 else 0#6) ++ (if p = 0 then memReadInv c3 else 0#6)

/-- `pack` gives the three bytes of that value. -/
theorem pack_eq (c0 c1 c2 c3 : CharCode) (p : Fin 3) :
    pack c0 c1 c2 c3 p = ((groupValue c0 c1 c2 c3 p).extractLsb' 16 8, (groupValue c0 c1 c2 c3 p).extractLsb' 8 8,
      (groupValue c0 c1 c2 c3 p).extractLsb' 0 8) := by
  simp only [groupValue, indices_byte0, indices_byte1, indices_byte2, pack, packVia]

/-- The word of the bytes that a group with `p` padding positions emits (R113, R120). -/
def emittedWord (g : ByteGroup) (p : Fin 3) : Payload :=
  packBytes (g.extractLsb' 16 8) (if p ≤ 1 then g.extractLsb' 8 8 else 0#8) (if p = 0 then g.extractLsb' 0 8 else 0#8)

/-- The emitted bytes as a number, the first one most significant. -/
theorem toNat_emittedWord (g : ByteGroup) (p : Fin 3) : (emittedWord g p).toNat =
    ((g.extractLsb' 16 8).toNat * 2 ^ 8 + (if p ≤ 1 then g.extractLsb' 8 8 else 0#8).toNat) * 2 ^ 8 +
      (if p = 0 then g.extractLsb' 0 8 else 0#8).toNat := by
  rw [emittedWord, packBytes, lanes_toNat, BitVec.toNat_ofNat, Nat.zero_mod, Nat.zero_mul, Nat.zero_add]

theorem emittedWord_zero (g : ByteGroup) : emittedWord g 0 = 0#8 ++ g := by
  apply BitVec.eq_of_toNat_eq
  rw [toNat_emittedWord, toNat_concat, if_pos (by decide), if_pos rfl]
  simp only [BitVec.extractLsb'_toNat, Nat.shiftRight_eq_div_pow, BitVec.toNat_ofNat]
  omega

theorem emittedWord_one (g : ByteGroup) : emittedWord g 1 = 0#8 ++ g.extractLsb' 8 16 ++ 0#8 := by
  apply BitVec.eq_of_toNat_eq
  rw [toNat_emittedWord, toNat_concat (0#8 ++ g.extractLsb' 8 16), toNat_concat, if_pos le_rfl, if_neg (by decide)]
  simp only [BitVec.extractLsb'_toNat, Nat.shiftRight_eq_div_pow, BitVec.toNat_ofNat]
  omega

theorem emittedWord_two (g : ByteGroup) : emittedWord g 2 = 0#8 ++ g.extractLsb' 16 8 ++ 0#16 := by
  apply BitVec.eq_of_toNat_eq
  rw [toNat_emittedWord, toNat_concat (0#8 ++ g.extractLsb' 16 8), toNat_concat, if_neg (by decide), if_neg (by decide)]
  simp only [BitVec.extractLsb'_toNat, Nat.shiftRight_eq_div_pow, BitVec.toNat_ofNat]
  omega

/-- A good group emits the leading bytes of its value and is the last one where it ends the length (R118). -/
theorem groupTransaction_of_good {c0 c1 c2 c3 : CharCode} {r : Regs} {p : Fin 3} (hs : r.decState = .expectGroup)
    (hf : firstOffending c0 c1 c2 c3 = none) (hp : padCount c0 c1 c2 c3 (isLastGroup r) = some p) :
    groupTransaction c0 c1 c2 c3 r =
      ({ r with decState := if isLastGroup r then .done else .expectGroup, decPos := r.decPos + 4#32 },
        ⟨r.decErr.status, isLastGroup r, 3#3 - BitVec.ofNat 3 p.val, r.decErrIndex, r.decErrChar,
          emittedWord (groupValue c0 c1 c2 c3 p) p⟩) := by
  rw [groupTransaction_of_expectGroup hs]
  rcases decodeGroup_cases c0 c1 c2 c3 r with ⟨j, c, hf', -⟩ | ⟨-, hp', -⟩ | ⟨q, -, hp', e⟩
  · simp [hf] at hf'
  · simp [hp] at hp'
  · obtain rfl : p = q := Option.some.inj (hp.symm.trans hp')
    rw [e, pack_eq]
    cases hl : isLastGroup r with
    | true => rfl
    | false => simp [finishGroup, decoderResponse, isFinal, hs, emittedWord]

/-- Four valid characters are a good group anywhere. -/
theorem padCount_of_isValid {c0 c1 c2 c3 : CharCode} (h0 : isValid c0 = true) (h1 : isValid c1 = true)
    (h2 : isValid c2 = true) (h3 : isValid c3 = true) (last : Bool) : padCount c0 c1 c2 c3 last = some 0 := by
  simp [padCount, not_isPad_of_isValid, h0, h1, h2, h3]

/-- Three valid characters and `=` are a good last group. -/
theorem padCount_of_isValid_pad {c0 c1 c2 : CharCode} (h0 : isValid c0 = true) (h1 : isValid c1 = true)
    (h2 : isValid c2 = true) : padCount c0 c1 c2 Config.pad true = some 1 := by
  simp [padCount, not_isPad_of_isValid, h0, h1, h2]

/-- Two valid characters and `==` are a good last group. -/
theorem padCount_of_isValid_pad_pad {c0 c1 : CharCode} (h0 : isValid c0 = true) (h1 : isValid c1 = true) :
    padCount c0 c1 Config.pad Config.pad true = some 2 := by
  simp [padCount, not_isPad_of_isValid, h0, h1]

/-- Settles O32: a group of valid characters, with `=` in its last places only, is good; its bytes by the three lemmas
about `emittedWord`. -/
theorem goodGroupIsDecoded : Obligations.GoodGroupIsDecoded := by
  intro c0 c1 c2 c3 s hs h0 h1
  simp only [← isValid_iff, exec_eq_respond, transactionOf] at *
  have o0 := isOffending_of_isValid c0 h0
  have o1 := isOffending_of_isValid c1 h1
  refine ⟨fun h2 h3 => ?_, ?_, ?_⟩
  · rw [groupTransaction_of_good hs
      (firstOffending_eq_none.2 ⟨o0, o1, isOffending_of_isValid c2 h2, isOffending_of_isValid c3 h3⟩)
      (padCount_of_isValid h0 h1 h2 h3 _), emittedWord_zero]
    rfl
  · rintro h2 rfl hlast
    have hp : padCount c0 c1 c2 Config.pad (isLastGroup s.regs) = some 1 := by
      rw [isLastGroup, hlast, padCount_of_isValid_pad h0 h1 h2]
    rw [groupTransaction_of_good hs
      (firstOffending_eq_none.2 ⟨o0, o1, isOffending_of_isValid c2 h2, isOffending_pad⟩) hp, emittedWord_one]
    rfl
  · rintro rfl rfl hlast
    have hp : padCount c0 c1 Config.pad Config.pad (isLastGroup s.regs) = some 2 := by
      rw [isLastGroup, hlast, padCount_of_isValid_pad_pad h0 h1]
    rw [groupTransaction_of_good hs (firstOffending_eq_none.2 ⟨o0, o1, isOffending_pad, isOffending_pad⟩) hp,
      emittedWord_two]
    rfl

/-! ### An encoded group, decoded -/

/-- A byte group is its four indices (R44, R91). -/
theorem indices_append (g : ByteGroup) :
    g.extractLsb' 18 6 ++ g.extractLsb' 12 6 ++ g.extractLsb' 6 6 ++ g.extractLsb' 0 6 = g := by
  rw [BitVec.extractLsb'_append_extractLsb'_eq_extractLsb' (start₂ := 18) rfl,
    BitVec.extractLsb'_append_extractLsb'_eq_extractLsb' (start₂ := 12) rfl]
  exact BitVec.extractLsb'_append_extractLsb' (w := 18)

section encoded
variable (b0 b1 b2 : Byte)

@[simp] theorem byteGroup_byte0 : (byteGroup b0 b1 b2).extractLsb' 16 8 = b0 :=
  (extractLsb'_append_above (b0 ++ b1) b2 8 8).trans BitVec.extractLsb'_append_eq_left

@[simp] theorem byteGroup_byte1 : (byteGroup b0 b1 b2).extractLsb' 8 8 = b1 :=
  (extractLsb'_append_above (b0 ++ b1) b2 0 8).trans BitVec.extractLsb'_append_eq_right

@[simp] theorem byteGroup_byte2 : (byteGroup b0 b1 b2).extractLsb' 0 8 = b2 := BitVec.extractLsb'_append_eq_right

/-! The value of an encoded group is the byte group it was made of: `INV` gives the indices back, and the padding counts
as the zeros that the encoder put in (R91, R114). -/

@[simp] theorem groupValue_encoded_one :
    groupValue (charOfSym (memReadSym (b0.extractLsb' 2 6))) (charOfSym (memReadSym (b0.extractLsb' 0 2 ++ 0#4)))
      Config.pad Config.pad 2 = byteGroup b0 0#8 0#8 := by
  simpa [groupValue, memReadInv_charOfSym] using indices_append (byteGroup b0 0#8 0#8)

@[simp] theorem groupValue_encoded_two :
    groupValue (charOfSym (memReadSym (b0.extractLsb' 2 6)))
      (charOfSym (memReadSym (b0.extractLsb' 0 2 ++ b1.extractLsb' 4 4)))
      (charOfSym (memReadSym (b1.extractLsb' 0 4 ++ 0#2))) Config.pad 1 = byteGroup b0 b1 0#8 := by
  simpa [groupValue, memReadInv_charOfSym] using indices_append (byteGroup b0 b1 0#8)

@[simp] theorem groupValue_encoded_three :
    groupValue (charOfSym (memReadSym (b0.extractLsb' 2 6)))
      (charOfSym (memReadSym (b0.extractLsb' 0 2 ++ b1.extractLsb' 4 4)))
      (charOfSym (memReadSym (b1.extractLsb' 0 4 ++ b2.extractLsb' 6 2)))
      (charOfSym (memReadSym (b2.extractLsb' 0 6))) 0 = byteGroup b0 b1 b2 := by
  simpa [groupValue, memReadInv_charOfSym] using indices_append (byteGroup b0 b1 b2)

end encoded

/-- The characters of a word, presented as a group. -/
@[simp] theorem decode_mkRequest_packChars (c0 c1 c2 c3 : CharCode) :
    decode (mkRequest 0x5#4 (packChars c0 c1 c2 c3)) = .dgrp c0 c1 c2 c3 := by
  simp [packChars]

/-- A good group that is a whole message (R118). -/
theorem exec_dgrp_of_only_group {c0 c1 c2 c3 : CharCode} {p : Fin 3} {t : State}
    (ht : t.regs = ⟨.expectGroup, 4#32, 0#32, .none, 0#32, 0#8⟩) (hf : firstOffending c0 c1 c2 c3 = none)
    (hp : padCount c0 c1 c2 c3 true = some p) :
    exec (.dgrp c0 c1 c2 c3) t = .next { t with
      regs := ⟨.done, 4#32, 4#32, .none, 0#32, 0#8⟩
      response := some ⟨.ok, true, 3#3 - BitVec.ofNat 3 p.val, 0#32, 0#8,
        emittedWord (groupValue c0 c1 c2 c3 p) p⟩ } := by
  have hl : isLastGroup t.regs = true := by rw [ht]; rfl
  rw [exec_eq_respond, transactionOf, groupTransaction_of_good (by rw [ht]) hf (by rw [hl, hp]), hl, ht]
  rfl

/-- The registers and the response after an operation, without the state around them. -/
theorem regs_response_of_exec {i : Instr} {s t : State} {rsp : Response} (h : exec i s = .next t)
    (hrsp : t.response = some rsp) : t.regs = (transactionOf i s.regs).1 ∧ rsp = (transactionOf i s.regs).2 := by
  obtain rfl := exec_eq_next_iff.1 h
  exact ⟨rfl, (Option.some.inj hrsp).symm⟩

/-- Settles O54: the characters of an encoded group are a good group whose value is the byte group again. -/
theorem encodedGroupDecodesOnTheMachine : Obligations.EncodedGroupDecodesOnTheMachine := by
  intro s t rsp b0 b1 b2 hs
  refine ⟨fun h hrsp => ?_, fun h hrsp => ?_, fun h hrsp => ?_⟩ <;>
  obtain ⟨ht, rfl⟩ := regs_response_of_exec h hrsp <;>
  rw [transactionOf, plainResponse_data]
  · rw [encGroup_one, decode_mkRequest_packChars]
    refine (exec_dgrp_of_only_group (p := 2) (ht.trans hs) ?_ ?_).trans ?_ <;>
    simp [firstOffending_eq_none, padCount, emittedWord, packBytes]
  · rw [encGroup_two, decode_mkRequest_packChars]
    refine (exec_dgrp_of_only_group (p := 1) (ht.trans hs) ?_ ?_).trans ?_ <;>
    simp [firstOffending_eq_none, padCount, emittedWord, packBytes]
  · rw [encGroup_three, decode_mkRequest_packChars]
    refine (exec_dgrp_of_only_group (p := 0) (ht.trans hs) ?_ ?_).trans ?_ <;>
    simp [firstOffending_eq_none, padCount, emittedWord, packBytes]

/-! ### DSTAT -/

/-- In `Rejected` an error is recorded, and only there (R30). -/
theorem Regs.Inv.status_eq_ok_iff {r : Regs} (hr : r.Inv) : r.decErr.status = .ok ↔ r.decState ≠ .rejected := by
  rw [← hr.errIffRejected]
  cases r.decErr <;> decide

/-- Settles O34: the response is that of the transaction; under R30 the status tells `Rejected`, and `final` tells
`Done` from `ExpectGroup`. -/
theorem dstatReportsTheDecoder : Obligations.DstatReportsTheDecoder := by
  refine ⟨decode_mkRequest_dstat, fun s => rfl, fun s t rsp hs h hrsp => ?_⟩
  obtain rfl := exec_eq_next_iff.1 h
  obtain rfl := Option.some.inj hrsp
  simp only [transactionOf, decoderResponse_status, decoderResponse_done, Ne, hs.status_eq_ok_iff]
  rcases hs.settled with hst | hst | hst <;> simp [hst, isFinal]

/-! ### The states that operations reach -/

/-- A fresh message expects a group, or is rejected or done at once (R116). -/
theorem startMessage_settled (len : Len) (r : Regs) :
    (startMessage len r).decState = .expectGroup ∨ (startMessage len r).decState = .rejected ∨
      (startMessage len r).decState = .done := (startMessage_inv len r).settled

/-- An accepted group leaves `Rejected` as it is, and `ExpectGroup` for a settled state (R115). -/
theorem GroupHandled.decState_cases {r : Regs} {t : Regs × Emitted} (h : GroupHandled r t) :
    (r.decState = .rejected ∧ t.1.decState = .rejected) ∨
    (r.decState = .expectGroup ∧
      (t.1.decState = .expectGroup ∨ t.1.decState = .rejected ∨ t.1.decState = .done)) := by
  cases h with
  | offending j c hc hs =>
    rcases hs with hs | ⟨hs, -⟩
    · exact .inr ⟨hs, .inr (.inl rfl)⟩
    · exact .inl ⟨hs, rfl⟩
  | misplacedPad hs => exact .inr ⟨hs, .inr (.inl rfl)⟩
  | decodedLast e hs => exact .inr ⟨hs, .inr (.inr rfl)⟩
  | decoded e hs => exact .inr ⟨hs, .inl hs⟩
  | absorbed hs => exact .inl ⟨hs, hs⟩

/-- Settles O46: DSTART, an accepted group, and every other operation in turn. -/
theorem onlyDstartLeavesATerminalState : Obligations.OnlyDstartLeavesATerminalState := by
  refine ⟨fun i s t hs h => ?_, fun i s t hs h => ?_⟩ <;>
  obtain rfl := exec_eq_next_iff.1 h <;>
  rcases transactionOf_regs_cases i s.regs with ⟨len, hi, e⟩ | ⟨-, e | ⟨-, u, hu, e⟩⟩ <;>
  rw [respond_regs, e]
  · exact .inr ⟨len, hi⟩
  · exact .inl rfl
  · rcases hu.decState_cases with ⟨hr, hr'⟩ | ⟨hr, -⟩
    · exact .inl (hr'.trans hr.symm)
    · simp [hr] at hs
  · exact startMessage_settled len s.regs
  · exact .inl hs
  · rcases hu.decState_cases with ⟨hr, -⟩ | ⟨-, hr'⟩
    · simp [hr] at hs
    · exact hr'

/-! ### The checks of `decode` -/

/-- No character offends exactly where the scan finds none (R111). -/
theorem earliestOffending_eq_none_iff (i : Nat) (t : List CharCode) :
    earliestOffending i t = none ↔ ∀ c ∈ t, isOffending c = false := by
  induction t generalizing i with
  | nil => simp [earliestOffending]
  | cons c t ih => cases h : isOffending c <;> simp [earliestOffending, h, ih]

/-- What the scan finds stands at the index it reports. -/
theorem getElem?_of_earliestOffending {i n : Nat} {t : List CharCode} {c : CharCode}
    (h : earliestOffending i t = some (n, c)) : ∃ j, n = i + j ∧ t[j]? = some c := by
  induction t generalizing i with
  | nil => cases h
  | cons d t ih =>
    rw [earliestOffending] at h
    split at h
    · cases h
      exact ⟨0, rfl, rfl⟩
    · obtain ⟨j, rfl, hj⟩ := ih h
      exact ⟨j + 1, by omega, hj⟩

/-- A `=` in front is misplaced unless at most one character follows and that is `=` too (R111). -/
theorem misplacedPad_cons (c : CharCode) (t : List CharCode) :
    misplacedPad (c :: t) =
      (isPad c && !(t.length == 0 || (t.length == 1 && padAt t 0)) || misplacedPad t) := by
  have hend (i k : Nat) : (i + 1 + k == t.length + 1) = (i + k == t.length) := by
    rw [Nat.add_right_comm, Bool.eq_iff_iff, beq_iff_eq, beq_iff_eq, Nat.add_right_cancel_iff]
  have hfirst (k : Nat) : (0 + (k + 1) == t.length + 1) = (t.length == k) := by
    rw [Nat.zero_add, Bool.eq_iff_iff, beq_iff_eq, beq_iff_eq, Nat.add_right_cancel_iff, eq_comm]
  rw [misplacedPad, List.length_cons, List.range_succ_eq_map, List.any_cons, List.any_map, hfirst 0, hfirst 1]
  simp only [Function.comp_def, Nat.succ_eq_add_one, hend]
  rfl

/-! The same for the characters of a group, one by one. -/

@[simp] theorem misplacedPad_nil : misplacedPad [] = false := rfl

@[simp] theorem misplacedPad_pair (c d : CharCode) : misplacedPad [c, d] = (isPad c && !isPad d) := by
  simp [misplacedPad_cons, padAt]

@[simp] theorem misplacedPad_cons_cons_cons (c d e : CharCode) (t : List CharCode) :
    misplacedPad (c :: d :: e :: t) = (isPad c || misplacedPad (d :: e :: t)) := by
  simp [misplacedPad_cons c]

/-- The padding check lets a `=` pass in the last place, and before a last `=`. -/
theorem misplacedPad_cons_eq_false_iff (c : CharCode) (t : List CharCode) :
    misplacedPad (c :: t) = false ↔
      (c = Config.pad → t = [] ∨ t = [Config.pad]) ∧ misplacedPad t = false := by
  rw [misplacedPad_cons, Bool.or_eq_false_iff, ← isPad_iff]
  match t with
  | [] => simp
  | [d] => cases isPad c <;> simp [padAt, isPad_iff]
  | d :: e :: t => cases isPad c <;> simp

/-- The strings that pass the padding check (R112). -/
theorem misplacedPad_eq_false_iff (t : List CharCode) :
    misplacedPad t = false ↔ ∃ body k, t = body ++ List.replicate k Config.pad ∧ k ≤ 2 ∧ Config.pad ∉ body := by
  constructor
  · intro h
    induction t with
    | nil => exact ⟨[], 0, rfl, by decide, List.not_mem_nil⟩
    | cons c t ih =>
      obtain ⟨hc, ht⟩ := (misplacedPad_cons_eq_false_iff c t).1 h
      by_cases hp : c = Config.pad
      · rcases hc hp with rfl | rfl
        · exact ⟨[], 1, by rw [hp]; rfl, by decide, List.not_mem_nil⟩
        · exact ⟨[], 2, by rw [hp]; rfl, by decide, List.not_mem_nil⟩
      · obtain ⟨body, k, rfl, hk, hbody⟩ := ih ht
        exact ⟨c :: body, k, rfl, hk, List.not_mem_cons_of_ne_of_not_mem (Ne.symm hp) hbody⟩
  · rintro ⟨body, k, rfl, hk, hbody⟩
    induction body with
    | nil => interval_cases k <;> rfl
    | cons c body ih =>
      obtain ⟨hne, hbody⟩ := not_or.1 (mt List.mem_cons.2 hbody)
      exact (misplacedPad_cons_eq_false_iff c _).2 ⟨fun hc => absurd hc.symm hne, ih hbody⟩

/-- A string is decoded exactly where it passes the three checks (R111). -/
theorem decodeMessage_eq_ok_iff (t : List CharCode) (out : List Byte) :
    decodeMessage t = .ok out ↔
      t.length % 4 = 0 ∧ (∀ c ∈ t, isOffending c = false) ∧ misplacedPad t = false ∧ out = decodeBytes t := by
  rw [← earliestOffending_eq_none_iff 0, decodeMessage]
  by_cases hlen : t.length % 4 = 0
  · cases earliestOffending 0 t with
    | some ic => simp [hlen]
    | none => cases misplacedPad t <;> simp [hlen, eq_comm]
  · simp [hlen]

/-- Settles O49: of the three checks only the padding check is left, and `misplacedPad_eq_false_iff` says what it
lets pass. -/
theorem onlyTrailingPaddingIsDecoded : Obligations.OnlyTrailingPaddingIsDecoded := by
  intro t hlen hc
  have hoff : ∀ c ∈ t, isOffending c = false := fun c hct => (isOffending_eq_false_iff c).2 (hc c hct)
  rw [← misplacedPad_eq_false_iff]
  constructor
  · rintro ⟨out, h⟩
    obtain ⟨-, -, hpad, -⟩ := (decodeMessage_eq_ok_iff t out).1 h
    exact hpad
  · intro h
    exact ⟨decodeBytes t, (decodeMessage_eq_ok_iff t _).2 ⟨hlen, hoff, h, rfl⟩⟩

/-- Settles O52: each of the six characters offends, so the scan finds an offending character. -/
theorem whiteSpaceAndUrlSafeSymbolsAreRejected : Obligations.WhiteSpaceAndUrlSafeSymbolsAreRejected := by
  intro t c hlen hct hc
  have hoff : ∀ d ∈ [0x20#8, 0x09#8, 0x0A#8, 0x0D#8, 0x2D#8, 0x5F#8], isOffending d = true := by decide
  cases h : earliestOffending 0 t with
  | none => exact absurd (hoff c hc) (by simp [(earliestOffending_eq_none_iff 0 t).1 h c hct])
  | some id =>
    obtain ⟨i, d⟩ := id
    obtain ⟨j, rfl, hj⟩ := getElem?_of_earliestOffending h
    exact ⟨j, d, hj, by simp [decodeMessage, hlen, h]⟩

/-! ### The bytes of a decoded string -/

/-- A string of whole groups is empty, or a group and a string of whole groups. -/
theorem groups_induction {P : (t : List CharCode) → t.length % 4 = 0 → Prop} (nil : P [] rfl)
    (group : ∀ c0 c1 c2 c3 rest (h : rest.length % 4 = 0) (h' : (c0 :: c1 :: c2 :: c3 :: rest).length % 4 = 0),
      P rest h → P (c0 :: c1 :: c2 :: c3 :: rest) h')
    (t : List CharCode) (ht : t.length % 4 = 0) : P t ht := by
  match t with
  | [] => exact nil
  | c0 :: c1 :: c2 :: c3 :: rest =>
    have h : rest.length % 4 = 0 := (Nat.add_mod_right rest.length 4).symm.trans ht
    exact group c0 c1 c2 c3 rest h ht (groups_induction nil group rest h)

/-- The bytes of a 24-bit value. -/
def groupBytes (g : ByteGroup) : List Byte := [g.extractLsb' 16 8, g.extractLsb' 8 8, g.extractLsb' 0 8]

@[simp] theorem length_groupBytes (g : ByteGroup) : (groupBytes g).length = 3 := rfl

section bytes
variable (c0 c1 c2 c3 : CharCode) (rest : List CharCode)

theorem decodeBytes_last : decodeBytes [c0, c1, c2, c3] =
    (groupBytes (groupValue c0 c1 c2 c3 (lastPadCount c2 c3))).take (3 - (lastPadCount c2 c3).val) := by
  simp [decodeBytes, pack_eq, groupBytes]

theorem decodeBytes_group_of_ne_nil (h : rest ≠ []) : decodeBytes (c0 :: c1 :: c2 :: c3 :: rest) =
    groupBytes (groupValue c0 c1 c2 c3 0) ++ decodeBytes rest := by
  simp [decodeBytes, pack_eq, groupBytes]

/-- A group that does not end in `=` gives its three bytes, last or not. -/
theorem decodeBytes_group (h : isPad c3 = false) : decodeBytes (c0 :: c1 :: c2 :: c3 :: rest) =
    groupBytes (groupValue c0 c1 c2 c3 0) ++ decodeBytes rest := by
  cases rest with
  | nil =>
    rw [decodeBytes_last, lastPadCount, h]
    rfl
  | cons c rest => exact decodeBytes_group_of_ne_nil c0 c1 c2 c3 _ (List.cons_ne_nil c rest)

/-- The padding check of a group with more groups to come. -/
theorem misplacedPad_group (hrest : rest.length % 4 = 0) (hnil : rest ≠ []) :
    misplacedPad (c0 :: c1 :: c2 :: c3 :: rest) =
      (isPad c0 || isPad c1 || isPad c2 || isPad c3 || misplacedPad rest) := by
  match rest with
  | [] => exact absurd rfl hnil
  | [d] => simp at hrest
  | d :: e :: rest => simp [Bool.or_assoc]

end bytes

theorem count_pad_cons (c : CharCode) (t : List CharCode) :
    (c :: t).count Config.pad = t.count Config.pad + if isPad c then 1 else 0 := List.count_cons

/-- Every group gives three bytes, but for one byte less for each `=` (R124). -/
theorem length_decodeBytes {t : List CharCode} (ht : t.length % 4 = 0) (h : misplacedPad t = false) :
    (decodeBytes t).length + t.count Config.pad = 3 * (t.length / 4) := by
  induction t, ht using groups_induction with
  | nil => rfl
  | group c0 c1 c2 c3 rest hrest _ ih =>
    by_cases hnil : rest = []
    · subst hnil
      simp only [misplacedPad_cons_cons_cons, misplacedPad_pair, Bool.or_eq_false_iff] at h
      obtain ⟨h0, h1, h23⟩ := h
      rw [decodeBytes_last]
      simp only [count_pad_cons, h0, h1, lastPadCount]
      cases h2 : isPad c2 <;> cases h3 : isPad c3
      case true.false => simp [h2, h3] at h23
      all_goals simp
    · simp only [misplacedPad_group _ _ _ _ _ hrest hnil, Bool.or_eq_false_iff] at h
      obtain ⟨⟨⟨⟨h0, h1⟩, h2⟩, h3⟩, hpad⟩ := h
      have hlaw := ih hpad
      simp only [decodeBytes_group _ _ _ _ _ h3, count_pad_cons, h0, h1, h2, h3, List.length_append, List.length_cons,
        length_groupBytes, Bool.false_eq_true, if_false]
      omega

/-- Settles O50: `length_decodeBytes`, all `=` of the string being the padding. -/
theorem decodedLengthLaw : Obligations.DecodedLengthLaw := by
  intro body k out hbody h
  obtain ⟨hlen, -, hpad, rfl⟩ := (decodeMessage_eq_ok_iff _ _).1 h
  have hcount : (body ++ List.replicate k 0x3D#8).count Config.pad = k := by
    rw [List.count_append, List.count_eq_zero_of_not_mem hbody, List.count_replicate_self, Nat.zero_add]
  have hlaw := length_decodeBytes hlen hpad
  rw [hcount, List.length_append, List.length_replicate] at hlaw
  omega

/-- A group of two valid characters and `==` decodes to the byte of the first index and the top of the second
(R125). -/
theorem decodeMessage_of_pad_pad {c0 c1 : CharCode} (h0 : memReadInvv c0 = 1#1) (h1 : memReadInvv c1 = 1#1) :
    decodeMessage [c0, c1, 0x3D#8, 0x3D#8] = .ok [memReadInv c0 ++ (memReadInv c1).extractLsb' 4 2] := by
  rw [← isValid_iff] at h0 h1
  refine (decodeMessage_eq_ok_iff _ _).2 ⟨Nat.mod_self 4, ?_, ?_, rfl⟩
  · simp [isOffending_of_isValid, h0, h1]
  · simp [not_isPad_of_isValid, h0, h1]

/-- A group of three valid characters and `=` decodes to two bytes, the second of the top of the third index (R125). -/
theorem decodeMessage_of_pad {c0 c1 c2 : CharCode} (h0 : memReadInvv c0 = 1#1) (h1 : memReadInvv c1 = 1#1)
    (h2 : memReadInvv c2 = 1#1) :
    decodeMessage [c0, c1, c2, 0x3D#8] = .ok [memReadInv c0 ++ (memReadInv c1).extractLsb' 4 2,
      (memReadInv c1).extractLsb' 0 4 ++ (memReadInv c2).extractLsb' 2 4] := by
  rw [← isValid_iff] at h0 h1 h2
  refine (decodeMessage_eq_ok_iff _ _).2 ⟨Nat.mod_self 4, ?_, ?_, ?_⟩
  · simp [isOffending_of_isValid, h0, h1, h2]
  · simp [not_isPad_of_isValid, h0, h1, h2]
  · simp [decodeBytes, lastPadCount, not_isPad_of_isValid c2 h2, pack, packVia]

/-- Settles O51: the bytes do not show the bits that are cut off. -/
theorem trailingBitsAreIgnored : Obligations.TrailingBitsAreIgnored := by
  refine ⟨fun c0 c1 c1' h0 h1 h1' heq => ?_, fun c0 c1 c2 c2' h0 h1 h2 h2' heq => ?_⟩
  · rw [decodeMessage_of_pad_pad h0 h1, decodeMessage_of_pad_pad h0 h1', heq]
    exact ⟨rfl, rfl⟩
  · rw [decodeMessage_of_pad h0 h1 h2, decodeMessage_of_pad h0 h1 h2', heq]
    exact ⟨rfl, rfl⟩

/-! ### Decoding an encoded message -/

/-- The bytes of an encoded message, group by group (R129). -/
theorem decodeBytes_encodeMessage (b : List Byte) : decodeBytes (encodeMessage b) = b := by
  induction b using encodeMessage.induct with
  | case1 b0 b1 b2 rest ih => simp [encodeMessage, encGroup_three, decodeBytes_group, groupBytes, ih]
  | case2 b0 b1 => simp [encodeMessage, encGroup_two, decodeBytes_last, lastPadCount, groupBytes]
  | case3 b0 => simp [encodeMessage, encGroup_one, decodeBytes_last, lastPadCount, groupBytes]
  | case4 => rfl

/-- An encoded message holds symbols and `=` only, and that only as its padding (R101). -/
theorem encodeMessage_passes_checks (b : List Byte) :
    (∀ c ∈ encodeMessage b, isOffending c = false) ∧ misplacedPad (encodeMessage b) = false := by
  rw [misplacedPad_eq_false_iff, encodeMessage_eq]
  refine ⟨fun c hc => ?_, _, _, rfl, ?_, ?_⟩
  · rcases List.mem_append.1 hc with hsym | hpad
    · obtain ⟨i, -, rfl⟩ := List.mem_map.1 hsym
      exact isOffending_charOfSym i
    · rw [List.eq_of_mem_replicate hpad, isOffending_pad]
  · rw [padLength]
    omega
  · intro hpad
    obtain ⟨i, -, hi⟩ := List.mem_map.1 hpad
    exact charOfSym_memReadSym_ne_pad i hi

/-- Settles O53: the three checks, and `decodeBytes_encodeMessage`. -/
theorem decodeOfEncodeIsTheMessage : Obligations.DecodeOfEncodeIsTheMessage := by
  intro b
  obtain ⟨hc, hpad⟩ := encodeMessage_passes_checks b
  exact (decodeMessage_eq_ok_iff _ b).2
    ⟨by rw [length_encodeMessage, Nat.mul_mod_right], hc, hpad, (decodeBytes_encodeMessage b).symm⟩

/-! ### What a request does to the messages of a run -/

/-- DSTART leaves nothing of the registers before it (R116). -/
theorem startMessage_congr (len : Len) (r r' : Regs) : startMessage len r = startMessage len r' := by
  rw [startMessage, startMessage]
  split_ifs <;> rfl

/-- Of the responses to groups, those to accepted ones are the ones that count as groups of a message (R117, R122). -/
theorem isAcceptedGroup_eq_accepting {w : Request} (hw : isDgrp w = true) (c0 c1 c2 c3 : CharCode) (r : Regs) :
    isAcceptedGroup w (groupTransaction c0 c1 c2 c3 r).2 = accepting r := by
  rw [isAcceptedGroup, hw, Bool.true_and, Bool.eq_iff_iff, bne_iff_ne, Ne, groupTransaction_status, Bool.not_eq_false]

/-- A transaction either opens a message, or is a group of the open one, or neither belongs to a message nor writes a
register (R49, R117, R122). -/
theorem request_cases (w : Request) (r : Regs) :
    (∃ len, decode w = .dstart len ∧ isDstart w = true) ∨
    (isDstart w = false ∧
      ((∃ c0 c1 c2 c3, decode w = .dgrp c0 c1 c2 c3 ∧ accepting r = true ∧
          isAcceptedGroup w (transactionOf (decode w) r).2 = true) ∨
        ((transactionOf (decode w) r).1 = r ∧ isAcceptedGroup w (transactionOf (decode w) r).2 = false))) := by
  have hstart : isDstart w = (opcOf (decode w) == 0x4#4) := by rw [opcOf_decode]; rfl
  have hgrp : isDgrp w = (opcOf (decode w) == 0x5#4) := by rw [opcOf_decode]; rfl
  rw [hstart]
  cases hi : decode w with
  | dstart len => exact .inl ⟨len, rfl, rfl⟩
  | dgrp c0 c1 c2 c3 =>
    have hg := isAcceptedGroup_eq_accepting (hgrp.trans (hi ▸ rfl)) c0 c1 c2 c3 r
    refine .inr ⟨rfl, ?_⟩
    cases ha : accepting r with
    | true => exact .inl ⟨c0, c1, c2, c3, rfl, rfl, hg.trans ha⟩
    | false => exact .inr ⟨congrArg Prod.fst (groupTransaction_of_not_accepting ha), hg.trans ha⟩
  | _ => exact .inr ⟨rfl, .inr ⟨rfl, by rw [isAcceptedGroup, hgrp, hi]; rfl⟩⟩

/-! The three cases, as they are cut. -/

section cut
variable {w : Request} (rsp : Response) (tr : List PortEvent)

theorem splitMessages_dstart (h : isDstart w = true) :
    splitMessages (.answered w rsp :: tr) = ([], ⟨rsp, (splitMessages tr).1⟩ :: (splitMessages tr).2) := by
  rw [splitMessages_cons, prependEvent, if_pos h]

theorem splitMessages_group {rsp : Response} (h : isDstart w = false) (ha : isAcceptedGroup w rsp = true) :
    splitMessages (.answered w rsp :: tr) = (rsp :: (splitMessages tr).1, (splitMessages tr).2) := by
  rw [splitMessages_cons, prependEvent, if_neg (by simp [h]), if_pos ha]

theorem splitMessages_other {rsp : Response} (h : isDstart w = false) (ha : isAcceptedGroup w rsp = false) :
    splitMessages (.answered w rsp :: tr) = splitMessages tr := by
  rw [splitMessages_cons, prependEvent, if_neg (by simp [h]), if_neg (by simp [ha])]

/-- A transcript that begins with no group adds its messages to those before it. -/
theorem splitMessages_append_of_no_groups (a : List PortEvent) {b : List PortEvent} (h : (splitMessages b).1 = []) :
    splitMessages (a ++ b) = ((splitMessages a).1, (splitMessages a).2 ++ (splitMessages b).2) := by
  rw [splitMessages_append, ← foldr_prependEvent, ← h]

end cut

@[simp] theorem isDstart_encode_dstart (len : Len) : isDstart (encode (.dstart len)) = true := by
  rw [isDstart, encode, reqOpc_mkRequest]
  rfl

/-- The events from a DSTART on do not depend on the registers before it (R116). -/
theorem eventsOf_dstart_congr (len : Len) (ys : List HostInput) (r r' : Regs) :
    eventsOf r (.request (encode (.dstart len)) :: ys) = eventsOf r' (.request (encode (.dstart len)) :: ys) := by
  rw [eventsOf, eventsOf, decode_encode, transactionOf, transactionOf, startMessage_congr len r r']

/-- Settles O58: the transcript is cut in two, the second part begins with no group, and its events are those after
reset. -/
theorem messagesEndAtDstartAndReset : Obligations.MessagesEndAtDstartAndReset := by
  intro s xs ys len
  simp only [fullTranscript_eq, eventsOf_append]
  constructor
  · rw [splitMessages_append_of_no_groups _ rfl]
    rfl
  · rw [eventsOf_dstart_congr len ys _ State.reset.regs, splitMessages_append_of_no_groups]
    · rfl
    · rw [eventsOf, splitMessages_dstart _ _ (isDstart_encode_dstart len)]

/-! ### The groups of a message -/

/-- Groups accepted one after the other, from the registers `r` to `r'`, and their responses. -/
inductive GroupRun : Regs → List Response → Regs → Prop
  /-- No group. -/
  | nil (r : Regs) : GroupRun r [] r
  /-- One group more in front. -/
  | group {r r' : Regs} {gs : List Response} (c0 c1 c2 c3 : CharCode) (ha : accepting r = true)
      (h : GroupRun (groupTransaction c0 c1 c2 c3 r).1 gs r') :
      GroupRun r ((groupTransaction c0 c1 c2 c3 r).2 :: gs) r'

/-- What the registers record of an error (R27 to R29). -/
def Regs.report (r : Regs) : DecErr × Len × CharCode := (r.decErr, r.decErrIndex, r.decErrChar)

/-- A response shows what was recorded (R62, R140). -/
def Response.Shows (rsp : Response) (e : DecErr × Len × CharCode) : Prop :=
  rsp.status = e.1.status ∧ rsp.errIndex = e.2.1 ∧ rsp.errChar = e.2.2

/-- The result of a message with this report and these bytes (R122). -/
def resultOf (e : DecErr × Len × CharCode) (bytes : List Byte) : Except DecodeError (List Byte) :=
  match e.1 with
  | .none => .ok bytes
  | .malformedLength => .error .malformedLength
  | .invalidCharacter => .error (.invalidCharacter e.2.1 e.2.2)
  | .invalidPadding => .error .invalidPadding

theorem resultFrom_of_shows {rsp : Response} {e : DecErr × Len × CharCode} (h : rsp.Shows e) (m : DecodeMessage) :
    resultFrom m rsp = some (resultOf e (messageTrace m)) := by
  obtain ⟨err, index, char⟩ := e
  obtain ⟨hstatus, hindex, hchar⟩ := h
  rw [resultFrom, hstatus, hindex, hchar]
  cases err <;> rfl

section final
variable {r r' : Regs} {gs : List Response}

theorem groupTransaction_shows (c0 c1 c2 c3 : CharCode) (ha : accepting r = true) :
    (groupTransaction c0 c1 c2 c3 r).2.Shows (groupTransaction c0 c1 c2 c3 r).1.report := by
  rcases groupTransaction_handled c0 c1 c2 c3 r with ⟨hr, -⟩ | ⟨-, t, -, e⟩
  · simp [ha] at hr
  · rw [e]
    exact ⟨rfl, rfl, rfl⟩

/-- A group accepted when the result is final keeps it and gives no byte (R31, R119). -/
theorem groupTransaction_of_isFinal (c0 c1 c2 c3 : CharCode) (ha : accepting r = true) (hf : isFinal r = true) :
    isFinal (groupTransaction c0 c1 c2 c3 r).1 = true ∧ (groupTransaction c0 c1 c2 c3 r).1.report = r.report ∧
      validBytes (groupTransaction c0 c1 c2 c3 r).2 = [] := by
  obtain ⟨hs, he⟩ := rejected_invalidCharacter_of_accepting_isFinal ha hf
  have hlt : r.decPos < r.decLen := by
    rcases accepting_iff.1 ha with hs' | ⟨-, -, hlt⟩
    · simp [hs] at hs'
    · exact hlt
  rw [groupTransaction_of_character_kept hs he hlt]
  exact ⟨isFinal_iff.2 (.inr ⟨hs, .inr (.inl he)⟩), rfl, rfl⟩

/-- So do all further groups of the message. -/
theorem GroupRun.of_isFinal (h : GroupRun r gs r') (hf : isFinal r = true) :
    isFinal r' = true ∧ r'.report = r.report ∧ gs.flatMap validBytes = [] := by
  induction h with
  | nil r => exact ⟨hf, rfl, rfl⟩
  | group c0 c1 c2 c3 ha _ ih =>
    obtain ⟨hf', hrep, hbytes⟩ := groupTransaction_of_isFinal c0 c1 c2 c3 ha hf
    obtain ⟨hfinal, hrep', hbytes'⟩ := ih hf'
    exact ⟨hfinal, hrep'.trans hrep, by rw [List.flatMap_cons, hbytes, hbytes', List.append_nil]⟩

/-- After a response with `done = 1` the result is final, and that response shows it. -/
theorem GroupRun.shows_of_done (h : GroupRun r gs r') {g : Response} (hg : g ∈ gs) (hd : g.done = true) :
    isFinal r' = true ∧ g.Shows r'.report := by
  induction h with
  | nil r => cases hg
  | @group r r' gs c0 c1 c2 c3 ha hrun ih =>
    rcases List.mem_cons.1 hg with rfl | hg
    · rw [groupTransaction_done] at hd
      obtain ⟨hfinal, hrep, -⟩ := hrun.of_isFinal hd
      exact ⟨hfinal, hrep ▸ groupTransaction_shows c0 c1 c2 c3 ha⟩
    · exact ih hg

/-- A result that is final after the groups was so before them, or a response says so. -/
theorem GroupRun.isFinal_or_exists_done (h : GroupRun r gs r') (hf : isFinal r' = true) :
    isFinal r = true ∨ ∃ g ∈ gs, g.done = true := by
  induction h with
  | nil r => exact .inl hf
  | group c0 c1 c2 c3 ha _ ih =>
    rcases ih hf with hd | ⟨g, hg, hd⟩
    · exact .inr ⟨_, List.mem_cons_self, by rw [groupTransaction_done, hd]⟩
    · exact .inr ⟨g, List.mem_cons_of_mem _ hg, hd⟩

end final

/-! ### The result of a message -/

/-- A message as the block answers it, `r'` being the registers at its end. -/
def DecodeMessage.EndsIn (m : DecodeMessage) (r' : Regs) : Prop :=
  ∃ len r, m.start = (transactionOf (.dstart len) r).2 ∧ GroupRun (startMessage len r) m.groups r'

section result
variable {m : DecodeMessage} {r' : Regs}

/-- Every response with `done = 1` shows the report at the end of the message. -/
theorem DecodeMessage.EndsIn.shows_of_done (h : m.EndsIn r') {rsp : Response} (hrsp : rsp ∈ m.responses)
    (hd : rsp.done = true) : isFinal r' = true ∧ rsp.Shows r'.report := by
  obtain ⟨len, r, hstart, hrun⟩ := h
  rcases List.mem_cons.1 hrsp with rfl | hg
  · rw [hstart] at hd ⊢
    obtain ⟨hfinal, hrep, -⟩ := hrun.of_isFinal hd
    exact ⟨hfinal, hrep ▸ ⟨rfl, rfl, rfl⟩⟩
  · exact hrun.shows_of_done hg hd

/-- Where the result is final some response says so. -/
theorem DecodeMessage.EndsIn.exists_done (h : m.EndsIn r') (hf : isFinal r' = true) :
    ∃ rsp ∈ m.responses, rsp.done = true := by
  obtain ⟨len, r, hstart, hrun⟩ := h
  rcases hrun.isFinal_or_exists_done hf with hd | ⟨g, hg, hd⟩
  · exact ⟨m.start, List.mem_cons_self, hstart ▸ hd⟩
  · exact ⟨g, List.mem_cons_of_mem _ hg, hd⟩

theorem messageResult_eq_none (h : ∀ rsp ∈ m.responses, rsp.done = false) : messageResult m = none := by
  rw [messageResult, List.find?_eq_none.2 fun rsp hrsp => by simp [h rsp hrsp]]
  rfl

/-- The result of a message is what the registers at its end report, once that is final (R122). -/
theorem DecodeMessage.EndsIn.messageResult_eq (h : m.EndsIn r') :
    messageResult m = if isFinal r' then some (resultOf r'.report (messageTrace m)) else none := by
  cases hfind : m.responses.find? fun rsp => rsp.done with
  | some rsp =>
    obtain ⟨hfinal, hshows⟩ := h.shows_of_done (List.mem_of_find?_eq_some hfind) (List.find?_some hfind)
    rw [messageResult, hfind, Option.bind_some, resultFrom_of_shows hshows, if_pos hfinal]
  | none =>
    have hnone := List.find?_eq_none.1 hfind
    have hf : ¬isFinal r' = true := fun hf =>
      have ⟨rsp, hrsp, hd⟩ := h.exists_done hf
      hnone rsp hrsp hd
    rw [messageResult, hfind, Option.bind_none, if_neg hf]

end result

/-- The groups in front of a run are accepted one after the other. -/
theorem groupRun_of_eventsOf (r : Regs) (xs : List HostInput) :
    ∃ r', GroupRun r (splitMessages (eventsOf r xs)).1 r' := by
  induction xs generalizing r with
  | nil => exact ⟨r, .nil r⟩
  | cons x xs ih =>
    cases x with
    | reset => exact ⟨r, .nil r⟩
    | request w =>
      rw [eventsOf]
      rcases request_cases w r with ⟨len, -, hd⟩ | ⟨hd, ⟨c0, c1, c2, c3, hw, ha, hg⟩ | ⟨hregs, hg⟩⟩
      · rw [splitMessages_dstart _ _ hd]
        exact ⟨r, .nil r⟩
      · rw [splitMessages_group _ hd hg, hw]
        obtain ⟨r', hrun⟩ := ih (groupTransaction c0 c1 c2 c3 r).1
        exact ⟨r', .group c0 c1 c2 c3 ha hrun⟩
      · rw [splitMessages_other _ hd hg, hregs]
        exact ih r

/-- Every message of a run is one that the block answers. -/
theorem exists_endsIn_of_mem_messages {m : DecodeMessage} {r : Regs} {xs : List HostInput}
    (h : m ∈ messages (eventsOf r xs)) : ∃ r', m.EndsIn r' := by
  rw [messages] at h
  induction xs generalizing r with
  | nil => cases h
  | cons x xs ih =>
    cases x with
    | reset => exact ih h
    | request w =>
      rw [eventsOf] at h
      rcases request_cases w r with ⟨len, hw, hd⟩ | ⟨hd, ⟨c0, c1, c2, c3, hw, ha, hg⟩ | ⟨hregs, hg⟩⟩
      · rw [splitMessages_dstart _ _ hd, hw] at h
        rcases List.mem_cons.1 h with rfl | h
        · obtain ⟨r', hrun⟩ := groupRun_of_eventsOf (startMessage len r) xs
          exact ⟨r', len, r, rfl, hrun⟩
        · exact ih h
      · rw [splitMessages_group _ hd hg] at h
        exact ih h
      · rw [splitMessages_other _ hd hg] at h
        exact ih h

/-- Settles O59: every final response shows the report at the end of the message, which is the result. -/
theorem messageResultIsReadFromAnyFinalResponse : Obligations.MessageResultIsReadFromAnyFinalResponse := by
  intro s m hm
  rw [fullTranscript_eq] at hm
  obtain ⟨r', hends⟩ := exists_endsIn_of_mem_messages hm
  refine ⟨messageResult_eq_none, fun rsp hrsp hd => ?_⟩
  obtain ⟨hfinal, hshows⟩ := hends.shows_of_done hrsp hd
  have hres := hends.messageResult_eq
  rw [if_pos hfinal] at hres
  obtain ⟨hstatus, hindex, hchar⟩ := hshows
  rw [hres, hstatus, hindex, hchar]
  generalize r'.report = e
  obtain ⟨err, index, char⟩ := e
  cases err with
  | none => exact .inl ⟨rfl, rfl⟩
  | malformedLength => exact .inr (.inl ⟨rfl, rfl⟩)
  | invalidCharacter => exact .inr (.inr (.inl ⟨rfl, rfl⟩))
  | invalidPadding => exact .inr (.inr (.inr ⟨rfl, rfl⟩))

/-! ### A message as a list of group requests -/

/-- The result of the message whose further requests, from the registers `r` on, are `ws`: what the registers after
them report, once it is final, with the bytes of the accepted groups (R122). -/
def resultAfter (r : Regs) (ws : List Request) : Option (Except DecodeError (List Byte)) :=
  let after := regsAfter r (ws.map .request)
  if isFinal after then
    some (resultOf after.report ((splitMessages (eventsOf r (ws.map .request))).1.flatMap validBytes))
  else none

/-- Requests that are all DGRP open no message and are the groups of the one they stand in. -/
theorem groupRun_of_groups (r : Regs) {ws : List Request} (h : ∀ w ∈ ws, reqOpc w = 0x5#4) :
    GroupRun r (splitMessages (eventsOf r (ws.map .request))).1 (regsAfter r (ws.map .request)) ∧
      (splitMessages (eventsOf r (ws.map .request))).2 = [] := by
  induction ws generalizing r with
  | nil => exact ⟨.nil r, rfl⟩
  | cons w ws ih =>
    have ih := fun r => ih r fun w' hw' => h w' (List.mem_cons_of_mem w hw')
    rw [List.map_cons, eventsOf, regsAfter]
    rcases request_cases w r with ⟨len, -, hd⟩ | ⟨hd, ⟨c0, c1, c2, c3, hw, ha, hg⟩ | ⟨hregs, hg⟩⟩
    · simp [isDstart, h w List.mem_cons_self] at hd
    · rw [splitMessages_group _ hd hg, hw]
      obtain ⟨hrun, hnone⟩ := ih (groupTransaction c0 c1 c2 c3 r).1
      exact ⟨.group c0 c1 c2 c3 ha hrun, hnone⟩
    · rw [splitMessages_other _ hd hg, hregs]
      exact ih r

/-- A run that is one DSTART and DGRPs is one message. -/
theorem messageResults_of_one_message (s : State) (len : Len) {ws : List Request} (h : ∀ w ∈ ws, reqOpc w = 0x5#4) :
    messageResults (fullTranscript (presentAll s (encode (.dstart len) :: ws))) =
      [resultAfter (startMessage len s.regs) ws] := by
  obtain ⟨hrun, hnone⟩ := groupRun_of_groups (startMessage len s.regs) h
  rw [fullTranscript_eq, presentAll_regs, presentAll_pending, List.map_cons, eventsOf, decode_encode, messageResults,
    messages, splitMessages_dstart _ _ (isDstart_encode_dstart len), transactionOf, hnone, List.map_singleton,
    DecodeMessage.EndsIn.messageResult_eq ⟨len, s.regs, rfl, hrun⟩]
  rfl

/-- More bytes in front stand in front of a good result and leave an error alone. -/
theorem resultOf_append (e : DecErr × Len × CharCode) (bytes more : List Byte) :
    resultOf e (bytes ++ more) = (resultOf e more).map (bytes ++ ·) := by
  obtain ⟨err, index, char⟩ := e
  cases err <;> rfl

section groups
variable {w : Request} {r : Regs} {ws : List Request} {res : Except DecodeError (List Byte)}

/-- The bytes of a message are those of its first group and those of the others. -/
theorem resultAfter_cons (hd : isDstart w = false) (hg : isAcceptedGroup w (transactionOf (decode w) r).2 = true) :
    resultAfter r (w :: ws) = (resultAfter (transactionOf (decode w) r).1 ws).map
      (Except.map (validBytes (transactionOf (decode w) r).2 ++ ·)) := by
  rw [resultAfter, List.map_cons, regsAfter, eventsOf, splitMessages_group _ hd hg, List.flatMap_cons, resultOf_append,
    resultAfter]
  split_ifs <;> rfl

/-- A request that is refused takes no part. -/
theorem resultAfter_cons_of_refused (hd : isDstart w = false) (hr : (transactionOf (decode w) r).1 = r)
    (hg : isAcceptedGroup w (transactionOf (decode w) r).2 = false) : resultAfter r (w :: ws) = resultAfter r ws := by
  rw [resultAfter, List.map_cons, regsAfter, eventsOf, splitMessages_other _ hd hg, hr, resultAfter]

/-- A final result is that of the registers. -/
theorem resultAfter_of_isFinal (h : ∀ w ∈ ws, reqOpc w = 0x5#4) (hf : isFinal r = true) :
    resultAfter r ws = some (resultOf r.report []) := by
  obtain ⟨hfinal, hrep, hbytes⟩ := (groupRun_of_groups r h).1.of_isFinal hf
  rw [resultAfter, if_pos hfinal, hrep, hbytes]

/-- A result once there stays, whatever groups follow (R119, R145). -/
theorem resultAfter_append {ws' : List Request} (h : ∀ w ∈ ws ++ ws', reqOpc w = 0x5#4)
    (hres : resultAfter r ws = some res) : resultAfter r (ws ++ ws') = some res := by
  induction ws generalizing r res with
  | nil =>
    cases hf : isFinal r with
    | true =>
      have hnil : resultAfter r [] = some (resultOf r.report []) := resultAfter_of_isFinal (by simp) hf
      exact (resultAfter_of_isFinal h hf).trans (hnil.symm.trans hres)
    | false => simp [resultAfter, regsAfter, hf] at hres
  | cons w ws ih =>
    obtain ⟨hw, h⟩ := List.forall_mem_cons.1 h
    rw [List.cons_append]
    rcases request_cases w r with ⟨len, -, hd⟩ | ⟨hd, ⟨c0, c1, c2, c3, -, -, hg⟩ | ⟨hregs, hg⟩⟩
    · simp [isDstart, hw] at hd
    · rw [resultAfter_cons hd hg] at hres ⊢
      obtain ⟨res', hres', rfl⟩ := Option.map_eq_some_iff.1 hres
      rw [ih h hres', Option.map_some]
    · rw [resultAfter_cons_of_refused hd hregs hg] at hres ⊢
      exact ih h hres

/-! The first group as an operation, from what its transaction is. -/

section operation
variable {c0 c1 c2 c3 c : CharCode} {j : Fin 4} {r' : Regs} {rsp : Response}

theorem resultAfter_group (ha : accepting r = true) (htr : groupTransaction c0 c1 c2 c3 r = (r', rsp)) :
    resultAfter r (encode (.dgrp c0 c1 c2 c3) :: ws) =
      (resultAfter r' ws).map (Except.map (validBytes rsp ++ ·)) := by
  have hd : isDstart (encode (.dgrp c0 c1 c2 c3)) = false := by
    rw [isDstart, encode, reqOpc_mkRequest]
    rfl
  have hw : isDgrp (encode (.dgrp c0 c1 c2 c3)) = true := by
    rw [isDgrp, encode, reqOpc_mkRequest]
    rfl
  have hg := (isAcceptedGroup_eq_accepting hw c0 c1 c2 c3 r).trans ha
  rw [resultAfter_cons hd (by rwa [decode_encode]), decode_encode, transactionOf, htr]

/-- A group that gives no byte does nothing but move the registers. -/
theorem resultAfter_group_of_no_bytes (ha : accepting r = true)
    (htr : groupTransaction c0 c1 c2 c3 r = (r', rsp)) (hb : validBytes rsp = []) :
    resultAfter r (encode (.dgrp c0 c1 c2 c3) :: ws) = resultAfter r' ws := by
  rw [resultAfter_group ha htr, hb]
  rcases resultAfter r' ws with _ | _ | _ <;> rfl

/-- An offending character is the result where no error or a padding error was (R118, R119). -/
theorem resultAfter_of_offending (hf : firstOffending c0 c1 c2 c3 = some (j, c))
    (hs : r.decState = .expectGroup ∨ (r.decState = .rejected ∧ r.decErr = .invalidPadding ∧ r.decPos < r.decLen))
    (h : ∀ w ∈ ws, reqOpc w = 0x5#4) :
    resultAfter r (encode (.dgrp c0 c1 c2 c3) :: ws) =
      some (.error (.invalidCharacter (r.decPos + BitVec.ofNat 32 j.val) c)) := by
  have ha : accepting r = true :=
    accepting_iff.2 (hs.imp_right fun ⟨hs, he, hlt⟩ => ⟨hs, by simp [he], hlt⟩)
  rw [resultAfter_group_of_no_bytes ha (groupTransaction_of_offending hf hs) rfl, resultAfter_of_isFinal h rfl]
  rfl

end operation

end groups

/-! ### The DECODE expansion -/

/-- The group requests of a string (R73). -/
def groupRequests (t : List CharCode) : List Request := (groupOps t).map encode

theorem groupRequests_cons (c0 c1 c2 c3 : CharCode) (rest : List CharCode) :
    groupRequests (c0 :: c1 :: c2 :: c3 :: rest) = encode (.dgrp c0 c1 c2 c3) :: groupRequests rest := rfl

theorem reqOpc_of_mem_groupRequests (t : List CharCode) : ∀ w ∈ groupRequests t, reqOpc w = 0x5#4 := by
  induction t using groupOps.induct with
  | case1 c0 c1 c2 c3 rest ih =>
    rw [groupRequests_cons, List.forall_mem_cons]
    exact ⟨reqOpc_mkRequest _ _, ih⟩
  | case2 t h => simp [groupRequests, groupOps]

/-- The second check of `decode`, on the characters from index `i` on, and what is answered if they pass (R111). -/
def answerFrom (i : Nat) (t : List CharCode) (passed : Except DecodeError (List Byte)) :
    Except DecodeError (List Byte) :=
  match earliestOffending i t with
  | some (n, c) => .error (.invalidCharacter (BitVec.ofNat 32 n) c)
  | none => passed

/-- The third check of `decode`, and the bytes (R111). -/
def decodeChecked (t : List CharCode) : Except DecodeError (List Byte) :=
  if misplacedPad t then .error .invalidPadding else .ok (decodeBytes t)

theorem decodeMessage_eq_answerFrom {t : List CharCode} (ht : t.length % 4 = 0) :
    decodeMessage t = answerFrom 0 t (decodeChecked t) := by
  cases h : earliestOffending 0 t <;> simp [decodeMessage, answerFrom, decodeChecked, ht, h]

/-! The patterns of `=` that a group may have, against the padding check of the whole string (R111, R113). -/

theorem padCount_last (c0 c1 c2 c3 : CharCode) : padCount c0 c1 c2 c3 true =
    if misplacedPad [c0, c1, c2, c3] then none else some (lastPadCount c2 c3) := by
  simp only [padCount, misplacedPad_cons_cons_cons, misplacedPad_pair, lastPadCount]
  cases isPad c0 <;> cases isPad c1 <;> cases isPad c2 <;> cases isPad c3 <;> rfl

theorem padCount_inner (c0 c1 c2 c3 : CharCode) : padCount c0 c1 c2 c3 false =
    if isPad c0 || isPad c1 || isPad c2 || isPad c3 then none else some 0 := by
  simp only [padCount]
  cases isPad c0 <;> cases isPad c1 <;> cases isPad c2 <;> cases isPad c3 <;> rfl

section answer
variable {i : Nat} {c0 c1 c2 c3 c : CharCode} {j : Fin 4} {rest : List CharCode}

/-- The scan of a string begins with that of its first group. -/
theorem answerFrom_of_offending (hf : firstOffending c0 c1 c2 c3 = some (j, c))
    (passed : Except DecodeError (List Byte)) :
    answerFrom i (c0 :: c1 :: c2 :: c3 :: rest) passed =
      .error (.invalidCharacter (BitVec.ofNat 32 i + BitVec.ofNat 32 j.val) c) := by
  rw [← BitVec.ofNat_add]
  unfold firstOffending at hf
  split_ifs at hf <;> cases hf <;> simp [answerFrom, earliestOffending, *]

theorem answerFrom_of_none (hf : firstOffending c0 c1 c2 c3 = none) (passed : Except DecodeError (List Byte)) :
    answerFrom i (c0 :: c1 :: c2 :: c3 :: rest) passed = answerFrom (i + 4) rest passed := by
  obtain ⟨o0, o1, o2, o3⟩ := firstOffending_eq_none.1 hf
  simp [answerFrom, earliestOffending, o0, o1, o2, o3]

theorem map_answerFrom (f : List Byte → List Byte) (t : List CharCode) (passed : Except DecodeError (List Byte)) :
    (answerFrom i t passed).map f = answerFrom i t (passed.map f) := by
  rw [answerFrom, answerFrom]
  cases earliestOffending i t <;> rfl

/-- The third check and the bytes, group by group: a pattern of `=` that the group may not have is an error of the
whole string, and any other gives the group's bytes before those of the rest. -/
theorem decodeChecked_group (hrest : rest.length % 4 = 0) :
    decodeChecked (c0 :: c1 :: c2 :: c3 :: rest) =
      match padCount c0 c1 c2 c3 rest.isEmpty with
      | none => .error .invalidPadding
      | some p => (decodeChecked rest).map ((groupBytes (groupValue c0 c1 c2 c3 p)).take (3 - p.val) ++ ·) := by
  by_cases hnil : rest = []
  · subst hnil
    rw [List.isEmpty_nil, padCount_last, decodeChecked, decodeBytes_last]
    cases misplacedPad [c0, c1, c2, c3] <;> simp [decodeChecked, decodeBytes, Except.map]
  · rw [List.isEmpty_eq_false_iff.2 hnil, padCount_inner, decodeChecked, decodeChecked,
      decodeBytes_group_of_ne_nil _ _ _ _ _ hnil, misplacedPad_group _ _ _ _ _ hrest hnil]
    cases isPad c0 || isPad c1 || isPad c2 || isPad c3 <;> cases misplacedPad rest <;> rfl

end answer

/-- The bytes of a good group's response. -/
theorem validBytes_of_emittedWord (g : ByteGroup) (p : Fin 3) {rsp : Response}
    (hcount : rsp.count = 3#3 - BitVec.ofNat 3 p.val) (hdata : rsp.data = emittedWord g p) :
    validBytes rsp = (groupBytes g).take (3 - p.val) := by
  rw [validBytes, hcount, hdata, emittedWord, byteLanes_packBytes]
  fin_cases p <;> rfl

section expansion
variable {n i : Nat} {t : List CharCode}

/-- After a padding error only an offending character is still looked for (R119). -/
theorem resultAfter_of_padding_error (ht : t.length % 4 = 0) (hn : i + t.length = n) (hlt : n < 2 ^ 32) :
    resultAfter ⟨.rejected, BitVec.ofNat 32 n, BitVec.ofNat 32 i, .invalidPadding, 0#32, 0#8⟩ (groupRequests t) =
      some (answerFrom i t (.error .invalidPadding)) := by
  induction t, ht using groups_induction generalizing i with
  | nil =>
    obtain rfl : i = n := hn
    exact resultAfter_of_isFinal (reqOpc_of_mem_groupRequests _) (isFinal_iff.2 (.inr ⟨rfl, .inr (.inr rfl)⟩))
  | group c0 c1 c2 c3 rest hrest _ ih =>
    have hpos : BitVec.ofNat 32 i < BitVec.ofNat 32 n := by
      simp only [List.length_cons] at hn
      rw [BitVec.lt_def, BitVec.toNat_ofNat, BitVec.toNat_ofNat]
      omega
    rw [groupRequests_cons]
    cases hf : firstOffending c0 c1 c2 c3 with
    | some jc =>
      rw [resultAfter_of_offending hf (.inr ⟨rfl, rfl, hpos⟩) (reqOpc_of_mem_groupRequests _),
        answerFrom_of_offending hf]
    | none =>
      rw [resultAfter_group_of_no_bytes (accepting_iff.2 (.inr ⟨rfl, by simp, hpos⟩))
        (groupTransaction_of_padding_kept rfl rfl hpos hf) rfl, answerFrom_of_none hf,
        ← ih (i := i + 4) (by simp only [List.length_cons] at hn; omega), BitVec.ofNat_add]

/-- The registers of a message of `n` characters after `i` of them without an error. -/
def openedAt (n i : Nat) : Regs :=
  ⟨if i = n then .done else .expectGroup, BitVec.ofNat 32 n, BitVec.ofNat 32 i, .none, 0#32, 0#8⟩

theorem isLastGroup_openedAt (hle : i + 4 ≤ n) (hlt : n < 2 ^ 32) :
    isLastGroup (openedAt n i) = decide (i + 4 = n) := by
  rw [isLastGroup, openedAt, ← BitVec.ofNat_add, Bool.eq_iff_iff, beq_iff_eq, decide_eq_true_iff, ← BitVec.toNat_inj,
    BitVec.toNat_ofNat, BitVec.toNat_ofNat, Nat.mod_eq_of_lt (by omega), Nat.mod_eq_of_lt hlt]

/-- A good group moves such a message on by four characters (R118, R120). -/
theorem openedAt_advance (hle : i + 4 ≤ n) (hlt : n < 2 ^ 32) :
    { openedAt n i with
      decState := if isLastGroup (openedAt n i) then .done else .expectGroup
      decPos := (openedAt n i).decPos + 4#32 } = openedAt n (i + 4) := by
  rw [isLastGroup_openedAt hle hlt]
  simp only [openedAt, decide_eq_true_eq, BitVec.ofNat_add]

/-- Groups presented without an error so far give what `decode` answers from there on (R118, R120, R123). -/
theorem resultAfter_openedAt (ht : t.length % 4 = 0) (hn : i + t.length = n) (hlt : n < 2 ^ 32) :
    resultAfter (openedAt n i) (groupRequests t) = some (answerFrom i t (decodeChecked t)) := by
  induction t, ht using groups_induction generalizing i with
  | nil =>
    obtain rfl : i = n := hn
    exact resultAfter_of_isFinal (reqOpc_of_mem_groupRequests _) (isFinal_iff.2 (.inl (if_pos rfl)))
  | group c0 c1 c2 c3 rest hrest _ ih =>
    have hn : i + 4 + rest.length = n := by
      simp only [List.length_cons] at hn
      omega
    have hs : (openedAt n i).decState = .expectGroup := if_neg (by omega)
    have hle : i + 4 ≤ n := by omega
    have hlast : isLastGroup (openedAt n i) = rest.isEmpty := by
      rw [isLastGroup_openedAt hle hlt, Bool.eq_iff_iff, decide_eq_true_iff, List.isEmpty_iff,
        ← List.length_eq_zero_iff]
      omega
    rw [groupRequests_cons]
    cases hf : firstOffending c0 c1 c2 c3 with
    | some jc =>
      rw [resultAfter_of_offending hf (.inl hs) (reqOpc_of_mem_groupRequests _), answerFrom_of_offending hf]
      rfl
    | none =>
      rw [answerFrom_of_none hf, decodeChecked_group hrest]
      cases hp : padCount c0 c1 c2 c3 rest.isEmpty with
      | none =>
        rw [resultAfter_group_of_no_bytes (accepting_iff.2 (.inl hs))
          (groupTransaction_of_misplacedPad hs hf (hlast ▸ hp)) rfl]
        simp only [openedAt, ← BitVec.ofNat_add]
        rw [resultAfter_of_padding_error hrest hn hlt]
      | some p =>
        rw [resultAfter_group (accepting_iff.2 (.inl hs)) (groupTransaction_of_good hs hf (hlast ▸ hp)),
          validBytes_of_emittedWord _ _ rfl rfl, openedAt_advance hle hlt, ih hn, Option.map_some, map_answerFrom]

end expansion

/-- A message of a good length starts without an error (R116). -/
theorem startMessage_eq_openedAt {n : Nat} (hn : n % 4 = 0) (hlt : n < 2 ^ 32) (r : Regs) :
    startMessage (BitVec.ofNat 32 n) r = openedAt n 0 := by
  have hlen : (BitVec.ofNat 32 n).toNat = n := Nat.mod_eq_of_lt hlt
  have hzero : BitVec.ofNat 32 n = 0#32 ↔ 0 = n := by
    rw [← BitVec.toNat_inj, hlen, eq_comm]
    rfl
  rcases startMessage_cases (BitVec.ofNat 32 n) r with ⟨hlow, -⟩ | ⟨h0, e⟩ | ⟨-, hne, e⟩
  · exact absurd ((lowBits_eq_zero_iff _).2 (hlen.symm ▸ hn)) hlow
  · rw [h0, e, ← hzero.1 h0]
    rfl
  · rw [e, openedAt, if_neg (mt hzero.2 hne)]

/-- A message of a bad length is rejected at once, whatever groups follow (R116, R145). -/
theorem startMessage_of_malformed {n : Nat} (hn : n % 4 ≠ 0) (hlt : n < 2 ^ 32) (r : Regs) :
    startMessage (BitVec.ofNat 32 n) r = ⟨.rejected, BitVec.ofNat 32 n, 0#32, .malformedLength, 0#32, 0#8⟩ := by
  have hlen : (BitVec.ofNat 32 n).toNat = n := Nat.mod_eq_of_lt hlt
  rcases startMessage_cases (BitVec.ofNat 32 n) r with ⟨-, e⟩ | ⟨h0, -⟩ | ⟨hlow, -, -⟩
  · exact e
  · rw [h0] at hlen
    subst hlen
    exact absurd rfl hn
  · exact absurd (hlen ▸ (lowBits_eq_zero_iff _).1 hlow) hn

/-- The group requests of the expansion of `DECODE t` (R73). -/
def expansionGroups (t : List CharCode) : List Request := if t.length % 4 = 0 then groupRequests t else []

theorem map_encode_decodeOps (t : List CharCode) :
    (decodeOps t).map encode = encode (.dstart (BitVec.ofNat 32 t.length)) :: expansionGroups t := by
  rw [decodeOps, expansionGroups, List.map_cons, apply_ite (List.map encode)]
  rfl

theorem reqOpc_of_mem_expansionGroups (t : List CharCode) : ∀ w ∈ expansionGroups t, reqOpc w = 0x5#4 := by
  rw [expansionGroups]
  split_ifs
  · exact reqOpc_of_mem_groupRequests t
  · simp

/-- From any registers the groups of the expansion of `DECODE t` give `decode(t)` (R73, R123). -/
theorem resultAfter_expansionGroups {t : List CharCode} (hlt : t.length < 2 ^ 32) (r : Regs) :
    resultAfter (startMessage (BitVec.ofNat 32 t.length) r) (expansionGroups t) = some (decodeMessage t) := by
  by_cases ht : t.length % 4 = 0
  · rw [expansionGroups, if_pos ht, startMessage_eq_openedAt ht hlt, resultAfter_openedAt ht (Nat.zero_add _) hlt,
      decodeMessage_eq_answerFrom ht]
  · rw [expansionGroups, if_neg ht, startMessage_of_malformed ht hlt, decodeMessage, if_pos ht]
    rfl

/-- The results of a run are those of the run without the requests that belong to no message (R49). -/
theorem messageResults_filter (s : State) (ws : List Request) :
    messageResults (fullTranscript (presentAll s ws)) =
      messageResults (fullTranscript (presentAll s (ws.filter isMessageRequest))) := by
  rw [messageResults, messages, (unrelatedTransactionsDoNotDisturbAMessage s ws).2]
  rfl

/-- Settles O55: the requests that belong to messages are one DSTART and groups; the groups of the expansion give
`decode(t)`, which further groups keep, and so does a part of them if it has a result at all. -/
theorem decodeExpansionComputesDecode : Obligations.DecodeExpansionComputesDecode := by
  intro s t ws hlt
  have hgroups := reqOpc_of_mem_expansionGroups t
  have hfull := resultAfter_expansionGroups hlt s.regs
  simp only [messageResults_filter s ws, map_encode_decodeOps]
  refine ⟨fun extra hextra hws => ?_, fun k hk hws => ?_⟩
  · have hall : ∀ w ∈ expansionGroups t ++ extra, reqOpc w = 0x5#4 := List.forall_mem_append.2 ⟨hgroups, hextra⟩
    rw [hws, List.cons_append, messageResults_of_one_message s _ hall, resultAfter_append hall hfull]
  · obtain ⟨k, rfl⟩ := Nat.exists_eq_succ_of_ne_zero hk.ne'
    have hpart : ∀ w ∈ (expansionGroups t).take k, reqOpc w = 0x5#4 := fun w hw => hgroups w (List.mem_of_mem_take hw)
    rw [hws, List.take_succ_cons, messageResults_of_one_message s _ hpart]
    cases hres : resultAfter (startMessage (BitVec.ofNat 32 t.length) s.regs) ((expansionGroups t).take k) with
    | none => exact .inl rfl
    | some res =>
      have hkept := resultAfter_append (ws' := (expansionGroups t).drop k) (by rwa [List.take_append_drop]) hres
      rw [List.take_append_drop, hfull] at hkept
      exact .inr (by rw [hkept])

/-- Settles O56: the characters are the encoding, the groups of its expansion give its decoding, and that is the
message. -/
theorem messageRoundTripOnTheMachine : Obligations.MessageRoundTripOnTheMachine := by
  intro s s' b hlt text
  have htext : text = encodeMessage b := encodeExpansionComputesEncode b s
  rw [htext, map_encode_decodeOps,
    messageResults_of_one_message s' _ (reqOpc_of_mem_expansionGroups _), resultAfter_expansionGroups hlt,
    decodeOfEncodeIsTheMessage b]

end Sys2Proof.Machine
end

