-- ==== Sys2Proof/Proofs/Exceptions.lean ====
section
/-! Proofs of the exceptions family: no request is left unanswered and no run stops (R147, R180), a DGRP that no message
expects (R145), and the priority of the decode errors (R148). -/

namespace Sys2Proof.Machine

/-! ### Every request is answered -/

/-- Settles O5: `exec_eq_respond`, and `respond` puts the registers and the response into the state. -/
theorem everyRequestWordIsAnswered : Obligations.EveryRequestWordIsAnswered := fun w s =>
  ⟨(transactionOf (decode w) s.regs).1, (transactionOf (decode w) s.regs).2, exec_eq_respond (decode w) s⟩

/-- Every step answers a next state, whatever input it takes (R147). -/
theorem exists_step_eq_next (s : State) : ∃ s', step s = .next s' := by
  match hp : s.pending with
  | [] => exact ⟨_, step_idle hp⟩
  | .reset :: rest => exact ⟨_, step_reset hp⟩
  | .request w :: rest => exact ⟨_, step_request hp⟩

/-- A run is safe where its first step answers and the run from there is safe. -/
theorem SafeRun.succ {k : Nat} {s s' : State} (hstep : step s = .next s') (h : SafeRun k s') : SafeRun (k + 1) s := by
  obtain ⟨t, ht⟩ := h
  refine ⟨t, ?_⟩
  simp only [Host.Core.run, Sys2Proof.core, hstep]
  exact ht

/-- Settles O6, by induction on the number of steps. -/
theorem everyRunIsSafe : Obligations.EveryRunIsSafe := by
  intro k
  induction k with
  | zero => exact fun s => ⟨s, rfl⟩
  | succ k ih =>
    intro s
    obtain ⟨s', hstep⟩ := exists_step_eq_next s
    exact .succ hstep (ih s')

/-! ### A group that no message expects -/

/-- No group is accepted after the last one of a message, nor in a message of a bad length (R31). -/
theorem accepting_eq_false {r : Regs}
    (h : r.decState = .done ∨ (r.decState = .rejected ∧ (r.decErr = .malformedLength ∨ r.decPos = r.decLen))) :
    accepting r = false := by
  rw [← Bool.not_eq_true, accepting_iff]
  rcases h with hs | ⟨hs, he | hpos⟩
  · simp [hs]
  · simp [hs, he]
  · simp [hs, hpos, BitVec.lt_irrefl]

/-- Settles O29: the row of opcode 5, the refused transaction, and `accepting_eq_false`. -/
theorem unexpectedGroupIsAProtocolError : Obligations.UnexpectedGroupIsAProtocolError := by
  refine ⟨decode_mkRequest_dgrp, fun c0 c1 c2 c3 s ha => ?_, fun r => accepting_eq_false⟩
  rw [exec_eq_respond, transactionOf, groupTransaction_of_not_accepting ha]
  rfl

/-- A refused group in front of a run takes no part in its messages (R117, R145). -/
theorem splitMessages_eventsOf_refused {r : Regs} (ha : accepting r = false) (c0 c1 c2 c3 : CharCode)
    (ys : List HostInput) :
    splitMessages (eventsOf r (.request (encode (.dgrp c0 c1 c2 c3)) :: ys)) = splitMessages (eventsOf r ys) := by
  rcases request_cases (encode (.dgrp c0 c1 c2 c3)) r with
    ⟨len, hi, -⟩ | ⟨hd, ⟨_, _, _, _, -, ha', -⟩ | ⟨hregs, hg⟩⟩
  · simp at hi
  · simp [ha] at ha'
  · rw [eventsOf, splitMessages_other _ hd hg, hregs]

/-- Settles O57: the transcript is cut where the group stands, and the second part begins with a refused group. -/
theorem unacceptedGroupChangesNoMessage : Obligations.UnacceptedGroupChangesNoMessage := by
  intro s s1 xs ys c0 c1 c2 c3 hrun ha
  obtain ⟨t, ht, -, hregs⟩ := run_pending { s with pending := xs }
  obtain rfl : t = s1 := Host.Outcome.next.inj (ht.symm.trans hrun)
  rw [hregs] at ha
  simp only [fullTranscript_eq, eventsOf_append, splitMessages_append]
  rw [splitMessages_eventsOf_refused ha]

/-! ### The priority of the decode errors -/

/-- The scan reports the first offending character with its index (R111, R148). -/
theorem earliestOffending_eq_some {t : List CharCode} {j : Nat} {c : CharCode} (hj : t[j]? = some c)
    (hc : isOffending c = true) (hlt : ∀ k d, k < j → t[k]? = some d → isOffending d = false) (i : Nat) :
    earliestOffending i t = some (i + j, c) := by
  induction t generalizing i j with
  | nil => simp at hj
  | cons d t ih =>
    rw [earliestOffending]
    cases j with
    | zero =>
      obtain rfl : d = c := by simpa using hj
      rw [if_pos hc, Nat.add_zero]
    | succ j =>
      have hd : isOffending d = false := hlt 0 d j.succ_pos rfl
      have htail : earliestOffending (i + 1) t = some (i + 1 + j, c) :=
        ih hj (fun k e hk he => hlt (k + 1) e (Nat.succ_lt_succ hk) he) (i + 1)
      rw [if_neg (by simp [hd]), htail, Nat.add_right_comm, Nat.add_assoc]

/-- The `=` of a string, by the index at which it stands. -/
theorem padAt_iff (t : List CharCode) (i : Nat) : padAt t i = true ↔ t[i]? = some Config.pad := by
  rw [padAt, isPad_iff, List.getD_eq_getElem?_getD]
  cases t[i]? with
  | none => decide
  | some c => simp

/-- What the padding check looks for: a `=` that is neither last nor second last before a last `=` (R111). -/
theorem misplacedPad_eq_true_iff (t : List CharCode) :
    misplacedPad t = true ↔ ∃ i, t[i]? = some Config.pad ∧
      ¬(i + 1 = t.length ∨ (i + 2 = t.length ∧ t[i + 1]? = some Config.pad)) := by
  have hlt {i : Nat} (h : t[i]? = some Config.pad) : i < t.length := (List.getElem?_eq_some_iff.1 h).1
  simp only [misplacedPad, List.any_eq_true, List.mem_range, Bool.not_eq_true', ← Bool.not_eq_true, Bool.or_eq_true,
    Bool.and_eq_true, beq_iff_eq, padAt_iff]
  exact exists_congr fun i => and_iff_right_of_imp fun h => hlt h.1

section decode
variable {t : List CharCode}

theorem decodeMessage_of_malformed (hlen : t.length % 4 ≠ 0) : decodeMessage t = .error .malformedLength := by
  rw [decodeMessage, if_pos hlen]

theorem decodeMessage_of_offending (hlen : t.length % 4 = 0) {i : Nat} {c : CharCode}
    (h : earliestOffending 0 t = some (i, c)) :
    decodeMessage t = .error (.invalidCharacter (BitVec.ofNat 32 i) c) := by
  rw [decodeMessage_eq_answerFrom hlen, answerFrom, h]

theorem decodeMessage_of_misplacedPad (hlen : t.length % 4 = 0) (hc : ∀ c ∈ t, isOffending c = false)
    (h : misplacedPad t = true) : decodeMessage t = .error .invalidPadding := by
  rw [decodeMessage_eq_answerFrom hlen, answerFrom, (earliestOffending_eq_none_iff 0 t).2 hc, decodeChecked, if_pos h]

end decode

/-- Settles O48: the three checks in their order, each with what it finds. -/
theorem decodeErrorsHaveTheirPriority : Obligations.DecodeErrorsHaveTheirPriority := by
  intro t
  refine ⟨decodeMessage_of_malformed, fun hlen i c hi hc hlt => ?_, fun hlen hc hpad => ?_⟩
  · have hscan : earliestOffending 0 t = some (0 + i, c) :=
      earliestOffending_eq_some hi ((isOffending_iff c).2 hc)
        (fun k d hk hd => (isOffending_eq_false_iff d).2 (hlt k d hk hd)) 0
    rw [decodeMessage_of_offending hlen hscan, Nat.zero_add]
  · exact decodeMessage_of_misplacedPad hlen (fun c hct => (isOffending_eq_false_iff c).2 (hc c hct))
      ((misplacedPad_eq_true_iff t).2 hpad)

end Sys2Proof.Machine
end

