-- ==== Sys2Proof/Proofs/ResetAndHazards.lean ====
section
/-! Proofs of the reset and hazards family: every input of the port is taken and answered in order (R180), and what a
reset restores and abandons (R170, R171). -/

namespace Sys2Proof.Machine

/-! ### The inputs of a run -/

/-- The events on the port are those of the inputs, one each and in order (R49, R180). -/
theorem map_input_eventsOf (r : Regs) (xs : List HostInput) : (eventsOf r xs).map PortEvent.input = xs := by
  induction xs generalizing r with
  | nil => rfl
  | cons x xs ih =>
    cases x with
    | reset => rw [eventsOf, List.map_cons, ih, PortEvent.input]
    | request w => rw [eventsOf, List.map_cons, ih, PortEvent.input]

/-- Settles O7: the run is `run_pending`, and its transcript is `eventsOf` the inputs. -/
theorem everyPresentedInputIsTaken : Obligations.EveryPresentedInputIsTaken := by
  intro s
  obtain ⟨t, hrun, hpending, -⟩ := run_pending s
  refine ⟨t, hrun, hpending, ?_⟩
  rw [fullTranscript_eq, map_input_eventsOf]

/-! ### Reset -/

/-- Settles O2: `step_reset`, and `resetInput` and `takeInput` between them write every field. -/
theorem resetInputRestoresTheResetRegisters : Obligations.ResetInputRestoresTheResetRegisters := fun _ _ h =>
  step_reset h

/-- No group is accepted after a reset, whatever message was in progress (R34, R171). -/
theorem accepting_resetInput (s : State) : accepting (resetInput s).regs = false := accepting_eq_false (.inl rfl)

/-- Settles O3: after reset a DGRP is one that no message expects (O29), and the other responses do not depend on the
registers at all (O38). -/
theorem resetAbandonsTheMessage : Obligations.ResetAbandonsTheMessage := by
  obtain ⟨-, refused, -⟩ := unexpectedGroupIsAProtocolError
  obtain ⟨-, sameResponse⟩ := responseIsAFunctionOfRequestAndRegisters
  refine ⟨fun c0 c1 c2 c3 s => refused c0 c1 c2 c3 (resetInput s) (accepting_resetInput s), ?_⟩
  exact fun i s t t' hi hdstat ht ht' => sameResponse i (resetInput s) s t' t hi hdstat ht' ht

end Sys2Proof.Machine
end
